-- ==== Sys2Proof/Word.lean ====
section
/-! DEFINITION. The words of the clayton-cpu CORE and their widths (spec/00_scope.md R6, R9): 8-bit register values and
memory bytes, 16-bit opcodes, pc values and stack slots, 12-bit addresses, register indices 0..15. All are unsigned. -/

namespace Sys2Proof

/-- A register value or a byte of memory: unsigned, 8 bits (R9 `bits8`). -/
abbrev Byte := BitVec 8

/-- An opcode, a pc value or a call-stack slot: unsigned, 16 bits (R9 `bits16`). -/
abbrev Word := BitVec 16

/-- The address field `nnn` of JMP and CALL: unsigned, 12 bits (R71). -/
abbrev Addr12 := BitVec 12

/-- A register index 0..15 (R20, R73): every value names a register. -/
abbrev RegIdx := Fin 16

/-- A call-stack pointer 0..16: how many slots are occupied (R29). -/
abbrev SpVal := Fin 17

end Sys2Proof
end

