-- ==== Sys2Proof/Machine/Flags.lean ====
section
/-! DEFINITION. The arithmetic results and the values VF receives (spec/42_arithmetic_logic.md R144 to R148), computed exactly on
naturals and narrowed to 8 bits at the end. All operands are unsigned. -/

namespace Sys2Proof.Machine

/-- `[cond]` as a flag value: 1 if it holds, else 0 (R9). -/
def flagByte (b : Bool) : Byte := if b then 1 else 0

/-- `s mod 256` with `s = A + B` (R144). -/
def addResult (a b : Byte) : Byte := BitVec.ofNat 8 (a.toNat + b.toNat)

/-- `[s > 255]`: "VF is 1 on carry out (unsigned overflow) and 0 otherwise" (R144; 90_conflicts.md C1). -/
def addFlag (a b : Byte) : Byte := flagByte (decide (a.toNat + b.toNat > 255))

/-- `(A + 256 - B) mod 256` (R145). -/
def subResult (a b : Byte) : Byte := BitVec.ofNat 8 (a.toNat + 256 - b.toNat)

/-- `[A >= B]`: "VF is 1 when no borrow occurs" (R145), the inverse of the ADD and MUL convention (R148). -/
def subFlag (a b : Byte) : Byte := flagByte (decide (a.toNat ≥ b.toNat))

/-- `p mod 256` with `p = A * B` (R146). -/
def mulResult (a b : Byte) : Byte := BitVec.ofNat 8 (a.toNat * b.toNat)

/-- `[p > 255]`: 1 when the unsigned product does not fit in 8 bits (R146; log 15). -/
def mulFlag (a b : Byte) : Byte := flagByte (decide (a.toNat * b.toNat > 255))

/-- `A div B`, the unsigned quotient, for `B != 0` (R147). -/
def divResult (a b : Byte) : Byte := BitVec.ofNat 8 (a.toNat / b.toNat)

/-- `A mod B`, the remainder, which DIV writes to VF (R147). -/
def divRemainder (a b : Byte) : Byte := BitVec.ofNat 8 (a.toNat % b.toNat)

end Sys2Proof.Machine
end

