-- ==== Sys2Proof/Syntax.lean ====
section
/-! DEFINITION. The abstract syntax of the 15-opcode clayton-cpu ISA (spec/00_scope.md R2, spec/30_encoding.md R72 to R74):
`Instr`, one constructor per row of spec/opcode_table.json, its mnemonic and shape, and the assembly line an instruction is
written as (R12, R82). -/

namespace Sys2Proof

/-- One instruction, with its operands as the decoder reads them (R71, R73). -/
inductive Instr where
  /-- HALT, 0x0000 (R103). -/
  | halt
  /-- RET, 0x00EE (R120). -/
  | ret
  /-- JMP nnn, 0x1nnn (R121). -/
  | jmp (nnn : Addr12)
  /-- CALL nnn, 0x2nnn (R122). -/
  | call (nnn : Addr12)
  /-- SE Vx, kk, 0x3xkk (R123). -/
  | se (x : RegIdx) (kk : Byte)
  /-- SNE Vx, kk, 0x4xkk (R124). -/
  | sne (x : RegIdx) (kk : Byte)
  /-- LD Vx, kk, 0x6xkk (R140). -/
  | ld (x : RegIdx) (kk : Byte)
  /-- OR Vx, Vy, 0x8xy1 (R141). -/
  | or (x y : RegIdx)
  /-- AND Vx, Vy, 0x8xy2 (R142). -/
  | and (x y : RegIdx)
  /-- XOR Vx, Vy, 0x8xy3 (R143). -/
  | xor (x y : RegIdx)
  /-- ADD Vx, Vy, 0x8xy4 (R144). -/
  | add (x y : RegIdx)
  /-- SUB Vx, Vy, 0x8xy5 (R145). -/
  | sub (x y : RegIdx)
  /-- MUL Vx, Vy, 0x8xyC (R146). -/
  | mul (x y : RegIdx)
  /-- DIV Vx, Vy, 0x8xyD (R147). -/
  | div (x y : RegIdx)
  /-- LDK, 0xF00A (R171). -/
  | ldk
  deriving DecidableEq, Repr

/-- The 15 mnemonics of the opcode table (R2). -/
inductive Mnemonic where
  | HALT | RET | JMP | CALL | SE | SNE | LD | OR | AND | XOR | ADD | SUB | MUL | DIV | LDK
  deriving DecidableEq, Repr

/-- The four layouts by instruction shape (R72). -/
inductive Shape where
  /-- No operand: all 16 bits literal. -/
  | n
  /-- A 12-bit address. -/
  | a
  /-- A register and an 8-bit immediate. -/
  | xk
  /-- Two registers. -/
  | xy
  deriving DecidableEq, Repr

/-- The shape of each instruction (R72). -/
def Mnemonic.shape : Mnemonic → Shape
  | .HALT | .RET | .LDK => .n
  | .JMP | .CALL => .a
  | .SE | .SNE | .LD => .xk
  | .OR | .AND | .XOR | .ADD | .SUB | .MUL | .DIV => .xy

/-- The mnemonic of an instruction (R74). -/
def Instr.mnemonic : Instr → Mnemonic
  | .halt => .HALT
  | .ret => .RET
  | .jmp _ => .JMP
  | .call _ => .CALL
  | .se _ _ => .SE
  | .sne _ _ => .SNE
  | .ld _ _ => .LD
  | .or _ _ => .OR
  | .and _ _ => .AND
  | .xor _ _ => .XOR
  | .add _ _ => .ADD
  | .sub _ _ => .SUB
  | .mul _ _ => .MUL
  | .div _ _ => .DIV
  | .ldk => .LDK

/-- An operand of an assembly line, as a number that nothing has bounded yet (R12, R82). -/
inductive AsmOperand where
  /-- A register `V<n>`. -/
  | reg (n : Nat)
  /-- An immediate or an address `0x<n>`. -/
  | num (n : Nat)
  deriving DecidableEq, Repr

/-- An assembly line `MNEMONIC operands` (R12). -/
structure AsmLine where
  mnemonic : Mnemonic
  operands : List AsmOperand
  deriving DecidableEq, Repr

/-- The operands of an instruction in the order of R82: the destination first, LDK with none. -/
def Instr.operands : Instr → List AsmOperand
  | .halt | .ret | .ldk => []
  | .jmp nnn | .call nnn => [.num nnn.toNat]
  | .se x kk | .sne x kk | .ld x kk => [.reg x.val, .num kk.toNat]
  | .or x y | .and x y | .xor x y | .add x y | .sub x y | .mul x y | .div x y => [.reg x.val, .reg y.val]

/-- The assembly line an instruction is written as (R82). -/
def Instr.asm (i : Instr) : AsmLine := { mnemonic := i.mnemonic, operands := i.operands }

end Sys2Proof
end

