-- ==== Sys2Proof/WellFormed.lean ====
section
/-! DEFINITION. Which assembly lines are instructions (spec/30_encoding.md R72, R73, R82). The operands of `Instr` carry their
field's width in their type, so every term of `Instr` is well formed; the checks stand where unbounded numbers enter, on an
assembly line: "An assembler must reject `nnn > 0xFFF` and `kk > 0xFF`" (R82), a register is V0 to VF, and the operands are
those of the mnemonic's shape. The assembler itself is `assemble` of Decode.lean. -/

namespace Sys2Proof

/-- The operands fit the shape, each within its field (R72, R73, R82). -/
def operandsFit : Shape → List AsmOperand → Bool
  | .n, [] => true
  | .a, [.num nnn] => decide (nnn ≤ 0xFFF)
  | .xk, [.reg x, .num kk] => decide (x ≤ 0xF) && decide (kk ≤ 0xFF)
  | .xy, [.reg x, .reg y] => decide (x ≤ 0xF) && decide (y ≤ 0xF)
  | _, _ => false

/-- The line is one an assembler accepts (R82). -/
def AsmLine.wellFormed (l : AsmLine) : Bool := operandsFit l.mnemonic.shape l.operands

/-- The instruction, written as an assembly line, is one an assembler accepts. -/
def Instr.wellFormed (i : Instr) : Bool := i.asm.wellFormed

end Sys2Proof
end

