-- ==== Sys2Proof/Decode.lean ====
section
/-! DEFINITION. The instruction word (spec/30_encoding.md): its fields, the opcode table with match and mask, the decoder
(total on any word and any bytes, refusing by name), the encoder, the assembler of R82 and its printer. -/

namespace Sys2Proof

/-! ## Fields (R71) -/

/-- `c` = opcode[15:12], the major opcode (R71). -/
def fieldC (w : Word) : BitVec 4 := w.extractLsb' 12 4

/-- `x` = opcode[11:8], the first register index (R71). -/
def fieldX (w : Word) : BitVec 4 := w.extractLsb' 8 4

/-- `y` = opcode[7:4], the second register index (R71). -/
def fieldY (w : Word) : BitVec 4 := w.extractLsb' 4 4

/-- `d` = opcode[3:0], the minor opcode of the 0x8 group (R71). -/
def fieldD (w : Word) : BitVec 4 := w.extractLsb' 0 4

/-- `nnn` = opcode[11:0], the address (R71). -/
def fieldNnn (w : Word) : Addr12 := w.extractLsb' 0 12

/-- `kk` = opcode[7:0], the immediate (R71). -/
def fieldKk (w : Word) : Byte := w.extractLsb' 0 8

/-- A register field names the register of its value: "Every value names a register" (R73). -/
def regOfBits (b : BitVec 4) : RegIdx := ⟨b.toNat, b.isLt⟩

/-- The four bits of a register index. -/
def bitsOfReg (r : RegIdx) : BitVec 4 := BitVec.ofNat 4 r.val

/-- A word from its four 4-bit fields, `c` highest (R71). -/
def wordOfFields (c x y d : BitVec 4) : Word := c ++ x ++ y ++ d

/-- A word from a major opcode and an address (shape A, R72). -/
def wordOfAddr (c : BitVec 4) (nnn : Addr12) : Word := c ++ nnn

/-- A word from a major opcode, a register field and an immediate (shape XK, R72). -/
def wordOfImm (c x : BitVec 4) (kk : Byte) : Word := c ++ x ++ kk

/-! ## The decode map (R74, R77) -/

/-- Why bytes are no instruction. -/
inductive DecodeError where
  /-- No row of the opcode table matches the word (R80, R106). -/
  | unknownOpcode (w : Word)
  /-- Fewer than the two bytes of an instruction are there (R70); a fetch never gives this. -/
  | truncated
  deriving DecidableEq, Repr

/-- "dispatch on the tuple `(c, x, y, d)` to exactly one instruction handler" (R77, R100). The LDK row has all 16 bits
literal (R76; log 11). -/
def decode (w : Word) : Except DecodeError Instr :=
  match fieldC w, fieldX w, fieldY w, fieldD w with
  | 0x0#4, 0x0#4, 0x0#4, 0x0#4 => .ok .halt
  | 0x0#4, 0x0#4, 0xE#4, 0xE#4 => .ok .ret
  | 0x1#4, _, _, _ => .ok (.jmp (fieldNnn w))
  | 0x2#4, _, _, _ => .ok (.call (fieldNnn w))
  | 0x3#4, x, _, _ => .ok (.se (regOfBits x) (fieldKk w))
  | 0x4#4, x, _, _ => .ok (.sne (regOfBits x) (fieldKk w))
  | 0x6#4, x, _, _ => .ok (.ld (regOfBits x) (fieldKk w))
  | 0x8#4, x, y, 0x1#4 => .ok (.or (regOfBits x) (regOfBits y))
  | 0x8#4, x, y, 0x2#4 => .ok (.and (regOfBits x) (regOfBits y))
  | 0x8#4, x, y, 0x3#4 => .ok (.xor (regOfBits x) (regOfBits y))
  | 0x8#4, x, y, 0x4#4 => .ok (.add (regOfBits x) (regOfBits y))
  | 0x8#4, x, y, 0x5#4 => .ok (.sub (regOfBits x) (regOfBits y))
  | 0x8#4, x, y, 0xC#4 => .ok (.mul (regOfBits x) (regOfBits y))
  | 0x8#4, x, y, 0xD#4 => .ok (.div (regOfBits x) (regOfBits y))
  | 0xF#4, 0x0#4, 0x0#4, 0xA#4 => .ok .ldk
  | _, _, _, _ => .error (.unknownOpcode w)

/-- "assembled from two consecutive memory bytes (big-endian: first byte is the high byte)" (R52, R54). -/
def wordOfBytes (hi lo : Byte) : Word := hi ++ lo

/-- The high byte of a word, which stands at the lower address (R54). -/
def highByte (w : Word) : Byte := w.extractLsb' 8 8

/-- The low byte of a word (R54). -/
def lowByte (w : Word) : Byte := w.extractLsb' 0 8

/-- Decode the first instruction of a byte sequence, and give the bytes after it: "it is always 2 bytes" (R70). -/
def decodeBytes : List Byte → Except DecodeError (Instr × List Byte)
  | hi :: lo :: rest => (decode (wordOfBytes hi lo)).map fun i => (i, rest)
  | _ => .error .truncated

/-- The instruction the decoder reads from a row's word, numbered as spec/opcode_table.json numbers it: the low `nbits` bits
of `w`, as one 16-bit opcode, laid out high byte first (R54). -/
def decodeTableWord (nbits w : Nat) : Option Instr :=
  let opcode : Word := BitVec.ofNat 16 (w % 2 ^ nbits)
  match decodeBytes [highByte opcode, lowByte opcode] with
  | .ok (i, _) => some i
  | .error _ => none

/-! ## The encoder (R72, R74, R82) -/

/-- The word of an instruction, written from the encodings of R82. -/
def encode : Instr → Word
  | .halt => 0x0000#16
  | .ret => 0x00EE#16
  | .jmp nnn => wordOfAddr 0x1#4 nnn
  | .call nnn => wordOfAddr 0x2#4 nnn
  | .se x kk => wordOfImm 0x3#4 (bitsOfReg x) kk
  | .sne x kk => wordOfImm 0x4#4 (bitsOfReg x) kk
  | .ld x kk => wordOfImm 0x6#4 (bitsOfReg x) kk
  | .or x y => wordOfFields 0x8#4 (bitsOfReg x) (bitsOfReg y) 0x1#4
  | .and x y => wordOfFields 0x8#4 (bitsOfReg x) (bitsOfReg y) 0x2#4
  | .xor x y => wordOfFields 0x8#4 (bitsOfReg x) (bitsOfReg y) 0x3#4
  | .add x y => wordOfFields 0x8#4 (bitsOfReg x) (bitsOfReg y) 0x4#4
  | .sub x y => wordOfFields 0x8#4 (bitsOfReg x) (bitsOfReg y) 0x5#4
  | .mul x y => wordOfFields 0x8#4 (bitsOfReg x) (bitsOfReg y) 0xC#4
  | .div x y => wordOfFields 0x8#4 (bitsOfReg x) (bitsOfReg y) 0xD#4
  | .ldk => 0xF00A#16

/-- The two bytes of an instruction as memory holds them, high byte first (R54, R70). -/
def encodeBytes (i : Instr) : List Byte := [highByte (encode i), lowByte (encode i)]

/-! ## The opcode table with match and mask (R74) -/

/-- One row of the decode map. -/
structure OpcodeRow where
  mnemonic : Mnemonic
  matchBits : Word
  mask : Word
  deriving DecidableEq, Repr

/-- "An opcode w selects the row with `(w & mask) = match`." (R74) -/
def OpcodeRow.selects (row : OpcodeRow) (w : Word) : Bool := w &&& row.mask == row.matchBits

/-- The row of each mnemonic, as the decode map prints it (R74). -/
def opcodeRow : Mnemonic → OpcodeRow
  | .HALT => ⟨.HALT, 0x0000, 0xFFFF⟩
  | .RET => ⟨.RET, 0x00EE, 0xFFFF⟩
  | .JMP => ⟨.JMP, 0x1000, 0xF000⟩
  | .CALL => ⟨.CALL, 0x2000, 0xF000⟩
  | .SE => ⟨.SE, 0x3000, 0xF000⟩
  | .SNE => ⟨.SNE, 0x4000, 0xF000⟩
  | .LD => ⟨.LD, 0x6000, 0xF000⟩
  | .OR => ⟨.OR, 0x8001, 0xF00F⟩
  | .AND => ⟨.AND, 0x8002, 0xF00F⟩
  | .XOR => ⟨.XOR, 0x8003, 0xF00F⟩
  | .ADD => ⟨.ADD, 0x8004, 0xF00F⟩
  | .SUB => ⟨.SUB, 0x8005, 0xF00F⟩
  | .MUL => ⟨.MUL, 0x800C, 0xF00F⟩
  | .DIV => ⟨.DIV, 0x800D, 0xF00F⟩
  | .LDK => ⟨.LDK, 0xF00A, 0xFFFF⟩

/-! ## The assembler and its printer (R12, R82) -/

/-- The instruction of an assembly line whose operands fit their fields. -/
def assembleOperands : Mnemonic → List AsmOperand → Option Instr
  | .HALT, [] => some .halt
  | .RET, [] => some .ret
  | .LDK, [] => some .ldk
  | .JMP, [.num n] => some (.jmp (BitVec.ofNat 12 n))
  | .CALL, [.num n] => some (.call (BitVec.ofNat 12 n))
  | .SE, [.reg x, .num k] => some (.se (Fin.ofNat 16 x) (BitVec.ofNat 8 k))
  | .SNE, [.reg x, .num k] => some (.sne (Fin.ofNat 16 x) (BitVec.ofNat 8 k))
  | .LD, [.reg x, .num k] => some (.ld (Fin.ofNat 16 x) (BitVec.ofNat 8 k))
  | .OR, [.reg x, .reg y] => some (.or (Fin.ofNat 16 x) (Fin.ofNat 16 y))
  | .AND, [.reg x, .reg y] => some (.and (Fin.ofNat 16 x) (Fin.ofNat 16 y))
  | .XOR, [.reg x, .reg y] => some (.xor (Fin.ofNat 16 x) (Fin.ofNat 16 y))
  | .ADD, [.reg x, .reg y] => some (.add (Fin.ofNat 16 x) (Fin.ofNat 16 y))
  | .SUB, [.reg x, .reg y] => some (.sub (Fin.ofNat 16 x) (Fin.ofNat 16 y))
  | .MUL, [.reg x, .reg y] => some (.mul (Fin.ofNat 16 x) (Fin.ofNat 16 y))
  | .DIV, [.reg x, .reg y] => some (.div (Fin.ofNat 16 x) (Fin.ofNat 16 y))
  | _, _ => none

/-- Assemble a line, refusing one that is not well formed: "An assembler must reject `nnn > 0xFFF` and `kk > 0xFF`" (R82). -/
def assemble (l : AsmLine) : Option Instr :=
  if l.wellFormed then assembleOperands l.mnemonic l.operands else none

/-- A hexadecimal digit (R8: most significant digit first, capitals as in R12). -/
def hexDigit (n : Nat) : Char := if n % 16 < 10 then Char.ofNat (48 + n % 16) else Char.ofNat (55 + n % 16)

/-- The `digits` low hexadecimal digits of a number. -/
def hexDigits : Nat → Nat → List Char
  | 0, _ => []
  | digits + 1, n => hexDigits digits (n / 16) ++ [hexDigit n]

/-- The characters of a mnemonic (R2). -/
def Mnemonic.chars : Mnemonic → List Char
  | .HALT => ['H', 'A', 'L', 'T']
  | .RET => ['R', 'E', 'T']
  | .JMP => ['J', 'M', 'P']
  | .CALL => ['C', 'A', 'L', 'L']
  | .SE => ['S', 'E']
  | .SNE => ['S', 'N', 'E']
  | .LD => ['L', 'D']
  | .OR => ['O', 'R']
  | .AND => ['A', 'N', 'D']
  | .XOR => ['X', 'O', 'R']
  | .ADD => ['A', 'D', 'D']
  | .SUB => ['S', 'U', 'B']
  | .MUL => ['M', 'U', 'L']
  | .DIV => ['D', 'I', 'V']
  | .LDK => ['L', 'D', 'K']

/-- How many hexadecimal digits a number of this shape is written with (R82): three for an address, two for an immediate. -/
def Shape.immDigits : Shape → Nat
  | .a => 3
  | _ => 2

/-- An operand as text: `Vx`, or `0x` and its digits (R12, R82; log 24). -/
def AsmOperand.chars (digits : Nat) : AsmOperand → List Char
  | .reg n => 'V' :: [hexDigit n]
  | .num n => '0' :: 'x' :: hexDigits digits n

/-- The operands as text, separated by a comma and a space. -/
def operandChars (digits : Nat) : List AsmOperand → List Char
  | [] => []
  | [o] => o.chars digits
  | o :: os => o.chars digits ++ [',', ' '] ++ operandChars digits os

/-- An assembly line as text, `MNEMONIC operands` (R12). -/
def AsmLine.chars (l : AsmLine) : List Char :=
  match l.operands with
  | [] => l.mnemonic.chars
  | os => l.mnemonic.chars ++ [' '] ++ operandChars l.mnemonic.shape.immDigits os

/-- An assembly line as a string (R12). -/
def AsmLine.render (l : AsmLine) : String := String.ofList l.chars

end Sys2Proof
end

