-- ==== Sys2Proof/Config.lean ====
section
/-! DEFINITION. The named parameters that the source leaves open (spec/00_scope.md R7) at the values `State.reset` takes for
them, and the model's one free value. The fixed parameters of R6 (16 registers of 8 bits, 4096 bytes of memory, 16 stack
slots of 16 bits) stand in the types of `State` and in the rules that use them. -/

namespace Sys2Proof

/-- REG_RESET (R7, R211): `none`, or `some v` with the register file's reset contents. DESIGN CHOICE, log 1: all zero.
unsafe. -/
def Config.regReset : Option (Vector Byte 16) := some (Vector.replicate 16 0)

/-- ENTRY_PC (R7, R213): the pc at the start of the first run. DESIGN CHOICE, log 3: 0, as in the source's scenarios.
unsafe. -/
def Config.entryPc : Word := 0

/-- The call-stack slots at reset: the spec leaves them unspecified (R212). DESIGN CHOICE, log 2: all zero. unsafe. -/
def Config.stackReset : Vector Word 16 := Vector.replicate 16 0

/-- What the registers hold at reset under `REG_RESET = none`: "the value of each `V[i]` is unknown" (R211). A free value:
nothing can be proved of it. DESIGN CHOICE, log 17. safe. -/
opaque Config.unknownRegs : Vector Byte 16

end Sys2Proof
end

