-- ==== Sys2Proof/Machine/State.lean ====
section
/-! DEFINITION. The state of the Processor (spec/10_state.md R33, R34), the outcomes that are no next state, and the state
after reset (spec/70_reset_and_hazards.md R210 to R216). -/

namespace Sys2Proof.Machine

/-- Memory (R50) in one canonical form: the listed addresses strictly rise, lie below 4096, and no listed byte is 0, which is
what an unlisted address reads as (`Memory.wf` of Ops.lean; log 20). -/
abbrev Memory := List Host.Cell

/-- A key event as the core sees it (R170; log 18). -/
inductive KeyEvent where
  /-- A character key, with its code point. -/
  | char (code : Nat)
  /-- The explicit cancel key, Escape. -/
  | cancel
  /-- Any other event type. -/
  | other
  deriving DecidableEq, Repr

/-- The faults that end a run: faults 2 to 7 of the taxonomy (R180, R182). -/
inductive RunFault where
  /-- CALL at sp = 16 (R122). -/
  | stackOverflow
  /-- RET at sp = 0 (R120). -/
  | stackUnderflow
  /-- DIV with a divisor of 0 (R147). -/
  | divideByZero
  /-- The fetched word matches no row of the opcode table (R80). -/
  | unknownOpcode
  /-- A fetch with a + 1 > 4095 (R52, R189; log 9). -/
  | fetchBounds
  /-- A read of a register whose written bit is clear (R188; model only; log 17). -/
  | unwrittenRegisterRead
  deriving DecidableEq, Repr

/-- The fault record (R183). Its `code` is a function of `kind` (`FaultRecord.code` of Ops.lean; log 19). -/
structure FaultRecord where
  kind : RunFault
  /-- The fetched word; none for a fetch fault. -/
  opcode : Option Word
  /-- The instruction address a. -/
  addr : Word
  /-- The register read, for `unwrittenRegisterRead` only. -/
  reg : Option RegIdx
  deriving DecidableEq, Repr

/-- The run state of the block, which no program can read (R31; log 26). -/
inductive Status where
  /-- Reset, no run yet. -/
  | idle
  | running
  /-- Blocked in LDK. -/
  | waitKey
  | halted
  | faulted (record : FaultRecord)
  deriving DecidableEq, Repr

/-- The complete state (R33, R34), and the key events still to come. -/
structure State where
  /-- The general registers V0 to VF; VF is the flag register (R20, R21). -/
  V : Vector Byte 16
  /-- The model-only written bits (R24). -/
  Vdef : Vector Bool 16
  /-- The program counter (R25). -/
  pc : Word
  /-- The call-stack slots (R29). -/
  stack : Vector Word 16
  /-- The stack pointer: how many slots are occupied (R29, R30). -/
  sp : SpVal
  /-- The memory (R50). -/
  mem : Memory
  /-- The run state (R31). -/
  status : Status
  /-- The model's own field: the key events the Key Source will deliver, oldest first, the draw KEY_EVENTS of R7 and R170
  (log 4). -/
  keys : List KeyEvent
  deriving DecidableEq, Repr

/-- What the outside may ask of the block (R35, R201). -/
inductive HostRequest where
  | reset
  | load
  | run
  | readState
  /-- The Key Source delivers an event. -/
  | keyEvent
  deriving DecidableEq, Repr

/-- What stops a transition with a fault. The run faults of R180 are NOT here: they give a next state whose status is
`faulted` (R182; log 7). -/
inductive Fault where
  /-- BoundsFault(start, len): raised by the host's `load` when start + len > 4096, returned to its caller, no state changed
  (R55, R181). Raised by `hostLoad` only, never by `step`. safe. -/
  | boundsFault (start len : Nat)
  deriving DecidableEq, Repr

/-- What has no meaning in the model. -/
inductive Refusal where
  /-- An instruction without a meaning yet: raised by an arm of `exec`; no arm raises it now. safe. -/
  | notModelled (mnemonic : String)
  /-- A step of a block whose run has ended, Halted or Faulted: "a faulted state has no step" (R187; also R182 and R200).
  Raised by `step`. safe. -/
  | runEnded
  /-- A step of a block in WaitKey with no key event to come: the loop "takes no `step()`" while it waits (R101), a model counts
  one step per key event (R219), and the wait is stuck (R173). Raised by `step`. safe. -/
  | waitingForKey
  /-- A request the block does not accept in its status: "refused by the model and changes nothing" (R201). Raised by the host
  operations of HostPort.lean, never by `step`. safe. -/
  | requestRefused (request : HostRequest)
  deriving DecidableEq, Repr

/-- The parameters of a reset that the source leaves open (R7, R211 to R213). -/
structure ResetParams where
  /-- REG_RESET (R211). -/
  regReset : Option (Vector Byte 16)
  /-- ENTRY_PC (R213). -/
  entryPc : Word
  /-- The unspecified call-stack slots (R212). -/
  slots : Vector Word 16
  deriving DecidableEq, Repr

/-- The state right after reset (R210 to R216), for any value of the open parameters and any key events to come. -/
def State.resetWith (p : ResetParams) (keys : List KeyEvent) : State where
  V := p.regReset.getD Config.unknownRegs
  Vdef := Vector.replicate 16 p.regReset.isSome
  pc := p.entryPc
  stack := p.slots
  sp := 0
  mem := []
  status := .idle
  keys := keys

/-- The reset parameters at the model's own values (Config.lean; log 1, 2, 3). -/
def ResetParams.default : ResetParams :=
  { regReset := Config.regReset, entryPc := Config.entryPc, slots := Config.stackReset }

/-- The machine right after reset: R216 at the values Config.lean names, with no key event to come (log 1, 2, 3, 4). -/
def State.reset : State := State.resetWith ResetParams.default []

end Sys2Proof.Machine
end

