-- ==== Sys2Proof/Machine/Ops.lean ====
section
/-! DEFINITION. The named operations over memory, registers, the call stack and the status (spec/00_scope.md R10), the fetch
(spec/20_memory.md R52), and raising a run fault (spec/60_exceptions.md R182 to R184). There is no trap entry and no trap
return on this hardware (R186, R187): a fault's whole entry is `raiseFault`. -/

namespace Sys2Proof.Machine

/-- What one transition gives. -/
abbrev Out := Host.Outcome State Fault Refusal

/-! ## Memory (R50, R52, R55) -/

/-- What an address that no load wrote reads as: "zero-initialized at construction" (R50). -/
def unlistedByte : Byte := 0

/-- `MemRead(addr, 1)` (R10): the byte at an address. -/
def Memory.readByte : Memory → Nat → Byte
  | [], _ => unlistedByte
  | (b, v) :: m, a => if b = a then v else Memory.readByte m a

/-- Put a byte in front, unless it is what an unlisted address reads as. -/
def Memory.consByte (a : Nat) (v : Byte) (m : Memory) : Memory := if v = unlistedByte then m else (a, v) :: m

/-- `MemWrite(addr, 1, v)` (R10), keeping the canonical form. -/
def Memory.writeByte : Memory → Nat → Byte → Memory
  | [], a, v => Memory.consByte a v []
  | (b, u) :: m, a, v =>
    if a < b then Memory.consByte a v ((b, u) :: m)
    else if a = b then Memory.consByte a v m
    else (b, u) :: Memory.writeByte m a v

/-- `for i in 0 .. len-1: MemWrite(start + i, 1, bytes[i])` (R55). -/
def Memory.writeBytes : Memory → Nat → List Byte → Memory
  | m, _, [] => m
  | m, start, v :: vs => Memory.writeBytes (Memory.writeByte m start v) (start + 1) vs

/-- The listed addresses are at least `low`, strictly rise and lie in the address space 0..4095, and no listed byte is the
unlisted one. -/
def Memory.wfFrom : Nat → Memory → Bool
  | _, [] => true
  | low, (a, v) :: m => decide (low ≤ a) && decide (a ≤ 4095) && !(v == unlistedByte) && Memory.wfFrom (a + 1) m

/-- The canonical form of memory (log 20). -/
def Memory.wf (m : Memory) : Bool := Memory.wfFrom 0 m

/-- `fetch(a)` (R52): none where `a + 1 > 4095`, in unbounded arithmetic; else the two bytes, high byte first. There is no
alignment check (R53; log 10). -/
def fetchWord (m : Memory) (a : Word) : Option Word :=
  if a.toNat + 1 > 4095 then none
  else some (wordOfBytes (m.readByte a.toNat) (m.readByte (a.toNat + 1)))

/-! ## Registers (R10, R20, R24) -/

/-- Register 0xF, VF, the flag register (R21). -/
def flagReg : RegIdx := 15

/-- `V[i]` (R10). -/
def State.reg (s : State) (i : RegIdx) : Byte := s.V[i]

/-- `Vdef[i]` (R24). -/
def State.written (s : State) (i : RegIdx) : Bool := s.Vdef[i]

/-- `V[i] <- v`, which sets `Vdef[i]` (R10, R24). -/
def State.writeReg (s : State) (i : RegIdx) (v : Byte) : State :=
  { s with V := s.V.set i.val v i.isLt, Vdef := s.Vdef.set i.val true i.isLt }

/-! ## pc, status, memory and key events -/

/-- `pc <- target` (R10). -/
def State.setPc (s : State) (target : Word) : State := { s with pc := target }

/-- `status <- v` (R31). -/
def State.setStatus (s : State) (v : Status) : State := { s with status := v }

/-- The memory after a load (R55). -/
def State.setMem (s : State) (m : Memory) : State := { s with mem := m }

/-- The key events still to come (R170). -/
def State.setKeys (s : State) (ks : List KeyEvent) : State := { s with keys := ks }

/-- The advance of R100: `pc <- a + 2`, before decode. -/
def advance (s : State) : State := s.setPc (s.pc + 2)

/-- Skip one more instruction width (R13, R123): `pc <- pc + 2`. -/
def skipNext (s : State) : State := s.setPc (s.pc + 2)

/-! ## The call stack (R29) -/

/-- `stack[sp] <- pc; sp <- sp + 1`, or none where sp = 16 (R122: the strict check of 90_conflicts.md C2). -/
def State.pushPc (s : State) : Option State :=
  if h : s.sp.val < 16 then
    some { s with stack := s.stack.set s.sp.val s.pc h, sp := ⟨s.sp.val + 1, by omega⟩ }
  else none

/-- `sp <- sp - 1; pc <- stack[sp]`, or none where sp = 0 (R120). The slot keeps its value. -/
def State.popPc (s : State) : Option State :=
  if h : s.sp.val = 0 then none
  else some { s with sp := ⟨s.sp.val - 1, by omega⟩, pc := s.stack[s.sp.val - 1]'(by omega) }

/-! ## Faults (R180 to R184) -/

/-- The numeric codes of the faults that end a run (R180; log 19). -/
def RunFault.code : RunFault → Nat
  | .stackOverflow => 2
  | .stackUnderflow => 3
  | .divideByZero => 4
  | .unknownOpcode => 5
  | .fetchBounds => 6
  | .unwrittenRegisterRead => 7

/-- The code of a fault record (R183). -/
def FaultRecord.code (r : FaultRecord) : Nat := r.kind.code

/-- The code of the load fault (R180). -/
def Fault.code : Fault → Nat
  | .boundsFault _ _ => 1

/-- `raise F(info)` for a run fault: `status <- Faulted(rec)`, and nothing else changes (R182, R184). -/
def raiseFault (r : FaultRecord) (s : State) : State := s.setStatus (.faulted r)

/-- The instruction address a, seen from a handler, where the pc already holds a + 2 (R25, R100; log 8). -/
def instrAddr (s : State) : Word := s.pc - 2

/-- The record of a fault that instruction `i` raises during execution: `opcode = w`, `addr = a` (R183). Each word has one
meaning, so w is the encoding of i (log 8). -/
def execRecord (kind : RunFault) (i : Instr) (reg : Option RegIdx) (s : State) : FaultRecord :=
  { kind := kind, opcode := some (encode i), addr := instrAddr s, reg := reg }

/-- Instruction `i` ends in a run fault (R184). -/
def execFault (kind : RunFault) (i : Instr) (s : State) : Out := .next (raiseFault (execRecord kind i none s) s)

/-- The record of a fetch at `a` past the end of memory: "`opcode = none` and `addr = a`" (R189). -/
def fetchBoundsRecord (a : Word) : FaultRecord := { kind := .fetchBounds, opcode := none, addr := a, reg := none }

/-- The record of a word `w` at `a` that matches no row (R80). -/
def unknownOpcodeRecord (w a : Word) : FaultRecord := { kind := .unknownOpcode, opcode := some w, addr := a, reg := none }

/-! ## Placing one instruction -/

/-- Where an instruction for the next fetch is placed: at the pc, or at 0 where no fetch can succeed at the pc (log 23). -/
def placeAddr (s : State) : Word := if s.pc.toNat + 1 > 4095 then 0 else s.pc

/-- The state whose next step fetches `w`: the word stored high byte first where the fetch reads (R54), the pc there, and the
run started (R101). It stands for the host's load and run() (log 23). -/
def placeInstruction (s : State) (w : Word) : State :=
  let a := placeAddr s
  ((s.setMem (Memory.writeBytes s.mem a.toNat [highByte w, lowByte w])).setPc a).setStatus .running

end Sys2Proof.Machine
end

