-- ==== Sys2Proof/Machine/Operands.lean ====
section
/-! DEFINITION. The operand forms: register reads with the written-bit check (spec/10_state.md R24, spec/60_exceptions.md R185,
R188), all of them before any write (spec/00_scope.md R11), and the extensions of R10 and R73. The immediate `kk` and the
register fields are used unchanged (R73). -/

namespace Sys2Proof.Machine

/-- `zext_16(nnn)`: the absolute, unscaled target of JMP and CALL (R10, R73). -/
def zext16 (nnn : Addr12) : Word := nnn.setWidth 16

/-- `sext_N(v)`: "defined for completeness and no rule uses it" (R10). -/
def sext16 (nnn : Addr12) : Word := nnn.signExtend 16

/-- Instruction `i` reads V[r] and goes on with its value, or raises UnwrittenRegisterRead where `Vdef[r]` is false (R24,
R188; log 17). -/
def withReg (i : Instr) (r : RegIdx) (s : State) (k : Byte → Out) : Out :=
  if s.written r then k (s.reg r)
  else .next (raiseFault (execRecord .unwrittenRegisterRead i (some r) s) s)

/-- Instruction `i` reads V[x], then V[y] (R185), and goes on with A and B. -/
def withRegs (i : Instr) (x y : RegIdx) (s : State) (k : Byte → Byte → Out) : Out :=
  withReg i x s fun a => withReg i y s fun b => k a b

/-- `V[x] <- v`, then `V[0xF] <- f`, "written last": where x = 0xF the second write wins (R149; log 12). -/
def writeRegAndFlag (x : RegIdx) (v f : Byte) (s : State) : State := (s.writeReg x v).writeReg flagReg f

end Sys2Proof.Machine
end

