-- ==== Sys2Proof/Machine/Alu.lean ====
section
/-! DEFINITION. Register load and the ALU instructions (spec/42_arithmetic_logic.md R140 to R150). A and B are V[x] and V[y]
read at the start of the instruction (R11); the pc, which holds a + 2, is not changed again. -/

namespace Sys2Proof.Machine

/-- LD Vx, kk: `V[x] <- kk` (R140). -/
def execLd (x : RegIdx) (kk : Byte) (s : State) : Out := .next (s.writeReg x kk)

/-- OR Vx, Vy: `V[x] <- A | B` (R141). VF is not touched (R150). -/
def execOr (x y : RegIdx) (s : State) : Out :=
  withRegs (.or x y) x y s fun a b => .next (s.writeReg x (a ||| b))

/-- AND Vx, Vy: `V[x] <- A & B` (R142). VF is not touched (R150). -/
def execAnd (x y : RegIdx) (s : State) : Out :=
  withRegs (.and x y) x y s fun a b => .next (s.writeReg x (a &&& b))

/-- XOR Vx, Vy: `V[x] <- A ^ B` (R143). VF is not touched (R150). -/
def execXor (x y : RegIdx) (s : State) : Out :=
  withRegs (.xor x y) x y s fun a b => .next (s.writeReg x (a ^^^ b))

/-- ADD Vx, Vy: the wrapping sum, then VF = carry out (R144). -/
def execAdd (x y : RegIdx) (s : State) : Out :=
  withRegs (.add x y) x y s fun a b => .next (writeRegAndFlag x (addResult a b) (addFlag a b) s)

/-- SUB Vx, Vy: the wrapping difference, then VF = no borrow (R145). -/
def execSub (x y : RegIdx) (s : State) : Out :=
  withRegs (.sub x y) x y s fun a b => .next (writeRegAndFlag x (subResult a b) (subFlag a b) s)

/-- MUL Vx, Vy: the low byte of the product, then VF = overflow (R146). -/
def execMul (x y : RegIdx) (s : State) : Out :=
  withRegs (.mul x y) x y s fun a b => .next (writeRegAndFlag x (mulResult a b) (mulFlag a b) s)

/-- DIV Vx, Vy: DivideByZeroFault where B = 0, before any write; else the quotient, then VF = the remainder (R147). -/
def execDiv (x y : RegIdx) (s : State) : Out :=
  withRegs (.div x y) x y s fun a b =>
    if b = 0 then execFault .divideByZero (.div x y) s
    else .next (writeRegAndFlag x (divResult a b) (divRemainder a b) s)

end Sys2Proof.Machine
end

