-- ==== Sys2Proof/Machine/Control.lean ====
section
/-! DEFINITION. HALT (spec/40_dispatch_loop.md R103) and the control-flow instructions (spec/41_control_flow.md R120 to R126).
Each meaning runs after the prologue of R100, so the state's pc holds a + 2. -/

namespace Sys2Proof.Machine

/-- HALT: `status <- Halted` (R103). -/
def execHalt (s : State) : Out := .next (s.setStatus .halted)

/-- RET: pops the call stack into the pc, or StackUnderflowFault where sp = 0 (R120). -/
def execRet (s : State) : Out :=
  match s.popPc with
  | some t => .next t
  | none => execFault .stackUnderflow .ret s

/-- JMP nnn: `pc <- zext_16(nnn)` (R121). -/
def execJmp (nnn : Addr12) (s : State) : Out := .next (s.setPc (zext16 nnn))

/-- CALL nnn: pushes the pc, which is a + 2, and jumps; StackOverflowFault where sp = 16 (R122). -/
def execCall (nnn : Addr12) (s : State) : Out :=
  match s.pushPc with
  | some t => .next (t.setPc (zext16 nnn))
  | none => execFault .stackOverflow (.call nnn) s

/-- SE Vx, kk: `if V[x] = kk then pc <- pc + 2` (R123). -/
def execSe (x : RegIdx) (kk : Byte) (s : State) : Out :=
  withReg (.se x kk) x s fun a => .next (if a = kk then skipNext s else s)

/-- SNE Vx, kk: `if V[x] != kk then pc <- pc + 2` (R124). -/
def execSne (x : RegIdx) (kk : Byte) (s : State) : Out :=
  withReg (.sne x kk) x s fun a => .next (if a = kk then s else skipNext s)

end Sys2Proof.Machine
end

