-- ==== Sys2Proof/Machine/KeyRead.lean ====
section
/-! DEFINITION. LDK and the key event that completes it (spec/43_key_read.md R170 to R174). -/

namespace Sys2Proof.Machine

/-- LDK: `status <- WaitKey`; `onKey` completes the instruction in a later transition (R171, R102). -/
def execLdk (s : State) : Out := .next (s.setStatus .waitKey)

/-- The register LDK writes: always V0 (R171). -/
def keyReg : RegIdx := 0

/-- `code mod 256`: the code point "truncated to 8 bits", its low 8 bits (R172; log 18). -/
def keyByte (code : Nat) : Byte := BitVec.ofNat 8 code

/-- `on_key(e)`: what one key event does while the status is WaitKey (R172). -/
def onKey : KeyEvent → State → State
  | .char code, s => (s.writeReg keyReg (keyByte code)).setStatus .running
  | .cancel, s => s.setStatus .running
  | .other, s => s

/-- One transition in WaitKey, which is one key event: the next event of the Key Source is consumed (R172, R219). With no event
to come there is no step (R101, R219): the hang of R173 (log 4, 5). -/
def waitStep (s : State) : Out :=
  match s.keys with
  | [] => .refused .waitingForKey
  | e :: rest => .next (onKey e (s.setKeys rest))

/-- The engine waits for a key event and none is to come (R101, R173). -/
def awaitsKey (s : State) : Bool :=
  match s.status, s.keys with
  | .waitKey, [] => true
  | _, _ => false

end Sys2Proof.Machine
end

