-- ==== Sys2Proof/Machine/Dispatch.lean ====
section
/-! DEFINITION. `execute(instr)` (spec/40_dispatch_loop.md R100): one arm per instruction, each a call of its meaning. -/

namespace Sys2Proof.Machine

/-- Execute a decoded instruction on a state whose pc already holds a + 2 (R100). -/
def exec (i : Instr) (s : State) : Host.Outcome State Fault Refusal :=
  match i with
  | .halt => Sys2Proof.Machine.execHalt s
  | .ret => Sys2Proof.Machine.execRet s
  | .jmp nnn => Sys2Proof.Machine.execJmp nnn s
  | .call nnn => Sys2Proof.Machine.execCall nnn s
  | .se x kk => Sys2Proof.Machine.execSe x kk s
  | .sne x kk => Sys2Proof.Machine.execSne x kk s
  | .ld x kk => Sys2Proof.Machine.execLd x kk s
  | .or x y => Sys2Proof.Machine.execOr x y s
  | .and x y => Sys2Proof.Machine.execAnd x y s
  | .xor x y => Sys2Proof.Machine.execXor x y s
  | .add x y => Sys2Proof.Machine.execAdd x y s
  | .sub x y => Sys2Proof.Machine.execSub x y s
  | .mul x y => Sys2Proof.Machine.execMul x y s
  | .div x y => Sys2Proof.Machine.execDiv x y s
  | .ldk => Sys2Proof.Machine.execLdk s

end Sys2Proof.Machine
end

