-- ==== Sys2Proof/Machine/HostPort.lean ====
section
/-! DEFINITION. The host control port, the observation port and the key port (spec/10_state.md R35, R36; spec/20_memory.md R55;
spec/40_dispatch_loop.md R101, R105; spec/60_exceptions.md R201; spec/70_reset_and_hazards.md R210, R217). These are
operations of the outside, no steps of the engine (log 21). -/

namespace Sys2Proof.Machine

/-- What the outside may do in each status (R201). -/
def hostAccepts : HostRequest → Status → Bool
  | .reset, .idle | .load, .idle | .run, .idle | .readState, .idle => true
  | .keyEvent, .waitKey => true
  | .reset, .halted | .load, .halted | .readState, .halted => true
  | .reset, .faulted _ | .load, .faulted _ | .readState, .faulted _ => true
  | _, _ => false

/-- A request: refused by name outside the table of R201, with nothing changed. -/
def ifAccepted (r : HostRequest) (s : State) (out : Out) : Out :=
  if hostAccepts r s.status then out else .refused (.requestRefused r)

/-- `reset`, which is construction (R210): every piece of state as R211 to R216 say. The events the Key Source will deliver
are the environment's, and stay (log 21). -/
def hostReset (p : ResetParams) (s : State) : Out := ifAccepted .reset s (.next (State.resetWith p s.keys))

/-- `load(bytes, start)` (R55): BoundsFault and nothing written where start + len > 4096 (log 14); else the bytes are
written and nothing else changes. -/
def hostLoad (bytes : List Byte) (start : Nat) (s : State) : Out :=
  ifAccepted .load s
    (if start + bytes.length > 4096 then .fault (.boundsFault start bytes.length)
     else .next (s.setMem (Memory.writeBytes s.mem start bytes)))

/-- The start of `run()`: `status <- Running`, accepted from Idle only (R101; log 21). -/
def hostRun (s : State) : Out := ifAccepted .run s (.next (s.setStatus .running))

/-- The observation port reads every field of the state while no run is in progress (R35; log 25). -/
def observe (s : State) : Except Refusal State :=
  if hostAccepts .readState s.status then .ok s else .error (.requestRefused .readState)

/-- The key port receives an event, while the status is WaitKey (R35, R172, R201). -/
def keyPort (e : KeyEvent) (s : State) : Out := ifAccepted .keyEvent s (.next (onKey e s))

/-- Go on with the next state of a transition, if there is one. -/
def andThen (o : Out) (k : State → Out) : Out :=
  match o with
  | .next t => k t
  | .fault r => .fault r
  | .refused r => .refused r

/-- The boot sequence (R217): reset with `ENTRY_PC = start`, load, run(). After a BoundsFault the host does not go on. -/
def boot (p : ResetParams) (bytes : List Byte) (start : Word) (s : State) : Out :=
  andThen (hostReset { p with entryPc := start } s) fun t =>
    andThen (hostLoad bytes start.toNat t) hostRun

/-- The result of a run as the host gets it (R105). -/
inductive RunResult where
  | halted
  | faulted (record : FaultRecord)
  deriving DecidableEq, Repr

/-- The result of a run, once it has ended (R105). -/
def runResult (s : State) : Option RunResult :=
  match s.status with
  | .halted => some .halted
  | .faulted r => some (.faulted r)
  | _ => none

/-- The run is still in progress: the loop condition of R101. -/
def inProgress (s : State) : Bool :=
  match s.status with
  | .running | .waitKey => true
  | _ => false

end Sys2Proof.Machine
end

