-- ==== Sys2Proof/Machine/Cycle.lean ====
section
/-! DEFINITION. One step of the engine (spec/40_dispatch_loop.md R100 to R102) and the loop of `run()` (R101, R104). -/

namespace Sys2Proof.Machine

/-- One step while the status is Running: fetch, advance, decode, execute, in that order (R100; the priority of R185). -/
def cycle (s : State) : Out :=
  match fetchWord s.mem s.pc with
  | none => .next (raiseFault (fetchBoundsRecord s.pc) s)
  | some w =>
    match decode w with
    | .error _ => .next (raiseFault (unknownOpcodeRecord w s.pc) (advance s))
    | .ok i => exec i (advance s)

/-- One transition, by status: a cycle while Running (R100), a key event in WaitKey (R172). Asking an Idle block for a step
is the host's run() (R101; log 6): the run starts and takes its first cycle. A run that has ended has no step (R182,
R187, R200; log 7), and neither has a wait with no key event to come (R101, R219; log 5). -/
def stepByStatus (s : State) : Out :=
  match s.status with
  | .idle => andThen (hostRun s) cycle
  | .running => cycle s
  | .waitKey => waitStep s
  | .halted => .refused .runEnded
  | .faulted _ => .refused .runEnded

/-- `repeat step() while status in {Running, WaitKey}` (R101), for at most `fuel` steps, each an instruction or a key event
(R219): the state in which the run ended, or the one it has reached. A wait takes no step until a key event comes (R101). -/
def runLoop : Nat → State → Out
  | 0, s => .next s
  | fuel + 1, s => if inProgress s && !awaitsKey s then andThen (stepByStatus s) (runLoop fuel) else .next s

/-- `run()` for at most `fuel` steps (R101). -/
def runFor (fuel : Nat) (s : State) : Out := andThen (hostRun s) (runLoop fuel)

end Sys2Proof.Machine
end

