-- ==== Sys2Proof/Machine/Step.lean ====
section
/-! DEFINITION. The machine's step, and the state in which a given word is what the next step fetches. -/

namespace Sys2Proof.Machine

/-- One transition of the machine (R100, R172; `stepByStatus` of Cycle.lean). -/
def step (s : State) : Host.Outcome State Fault Refusal := stepByStatus s

/-- The state `s` with the instruction word `w` (its low `nbits` bits, numbered as spec/opcode_table.json numbers them) where
the next step fetches it (log 23). -/
def State.withFetchWord (s : State) (nbits w : Nat) : State := placeInstruction s (BitVec.ofNat 16 (w % 2 ^ nbits))

end Sys2Proof.Machine
end

