-- ==== Sys2Proof/Safety.lean ====
section
/-! DEFINITION. The terms the claims use: what an instruction leaves unchanged, the invariants of the machine, and runs. -/

namespace Sys2Proof.Machine

/-! ## Frames -/

/-- Every register outside `rs` keeps its value and its written bit. -/
def KeepsRegs (rs : List RegIdx) (s t : State) : Prop :=
  ∀ r, r ∉ rs → t.reg r = s.reg r ∧ t.written r = s.written r

/-- The call stack and its pointer are unchanged. -/
def KeepsStack (s t : State) : Prop := t.stack = s.stack ∧ t.sp = s.sp

/-- Every byte of memory reads as before. -/
def KeepsMemory (s t : State) : Prop := ∀ a, t.mem.readByte a = s.mem.readByte a

/-- The frame of an instruction that writes at most the registers `rs`: every other register, the call stack, every byte of
memory and the key events to come are unchanged. -/
def Frame (rs : List RegIdx) (s t : State) : Prop :=
  KeepsRegs rs s t ∧ KeepsStack s t ∧ KeepsMemory s t ∧ t.keys = s.keys

/-- The pc and the status are unchanged. -/
def KeepsControl (s t : State) : Prop := t.pc = s.pc ∧ t.status = s.status

/-- An instruction with the word `w`, executed on `s` (whose pc holds a + 2), ended in a run fault: the record names `w` and
a, the pc stays at a + 2, and nothing else changed (R183, R184). -/
def FaultedBy (kind : RunFault) (w : Word) (reg : Option RegIdx) (s t : State) : Prop :=
  t.status = .faulted { kind := kind, opcode := some w, addr := s.pc - 2, reg := reg } ∧ t.pc = s.pc ∧ Frame [] s t

/-- The registers an instruction's execution may write (the table of R22). LDK's own V0 is written at the key event. -/
def Writes : Instr → List RegIdx
  | .halt | .ret | .jmp _ | .call _ | .se _ _ | .sne _ _ | .ldk => []
  | .ld x _ | .or x _ | .and x _ | .xor x _ => [x]
  | .add x _ | .sub x _ | .mul x _ | .div x _ => [x, flagReg]

/-- The registers an instruction reads, in order (the table of R22; R185). -/
def Reads : Instr → List RegIdx
  | .halt | .ret | .jmp _ | .call _ | .ld _ _ | .ldk => []
  | .se x _ | .sne x _ => [x]
  | .or x y | .and x y | .xor x y | .add x y | .sub x y | .mul x y | .div x y => [x, y]

/-! ## What stands at the pc -/

/-- The instruction that the next fetch gives, if it is one. -/
def instrAt (s : State) : Option Instr :=
  match fetchWord s.mem s.pc with
  | none => none
  | some w =>
    match decode w with
    | .ok i => some i
    | .error _ => none

/-! ## Invariants -/

/-- Every occupied call-stack slot holds a return address that a CALL can push: at most 4096 (R28, R122). -/
def SlotsBounded (s : State) : Prop := ∀ j : Fin 16, j.val < s.sp.val → s.stack[j].toNat ≤ 4096

/-- Every register is written: no read can raise UnwrittenRegisterRead (R24, R188). -/
def AllWritten (s : State) : Prop := ∀ r, s.written r = true

/-- The machine's invariant: memory in canonical form, bounded return addresses, and the pc in 0..4098 (R28, R50). -/
def MachineInv (s : State) : Prop := s.mem.wf = true ∧ SlotsBounded s ∧ s.pc.toNat ≤ 4098

/-- The two states differ at most in call-stack slots at or above sp (R212). -/
def AgreeOnLive (s t : State) : Prop :=
  s.V = t.V ∧ s.Vdef = t.Vdef ∧ s.pc = t.pc ∧ s.sp = t.sp ∧ s.mem = t.mem ∧ s.status = t.status ∧ s.keys = t.keys ∧
    ∀ j : Fin 16, j.val < s.sp.val → s.stack[j] = t.stack[j]

/-- The lowest `d` slots of the call stack are occupied, and hold what they hold in `f`: return addresses still to be used. -/
def HoldsFrames (d : Nat) (f : Vector Word 16) (s : State) : Prop :=
  d ≤ s.sp.val ∧ ∀ j : Fin 16, j.val < d → s.stack[j] = f[j]

/-- The two states agree but for the registers outside `rs`, their values and written bits. -/
def AgreeOn (rs : List RegIdx) (s t : State) : Prop :=
  (∀ r, r ∈ rs → s.reg r = t.reg r ∧ s.written r = t.written r) ∧ s.pc = t.pc ∧ s.stack = t.stack ∧ s.sp = t.sp ∧
    s.mem = t.mem ∧ s.status = t.status ∧ s.keys = t.keys

/-! ## Runs -/

/-- `t` is reached from `s` by steps of the machine. -/
inductive Reachable : State → State → Prop where
  | refl (s : State) : Reachable s s
  | next {s t u : State} : Reachable s t → step t = .next u → Reachable s u

/-- A safe run: no state reached from `s` has ended in a fault. -/
def SafeRun (s : State) : Prop := ∀ t, Reachable s t → ∀ r, t.status ≠ .faulted r

/-- A step that neither calls nor returns: a key event, or an instruction other than CALL and RET. -/
def PlainStep (s t : State) : Prop :=
  step s = .next t ∧
    (s.status = .waitKey ∨
      (s.status = .running ∧ ∃ i, instrAt s = some i ∧ (∀ nnn, i ≠ .call nnn) ∧ i ≠ .ret))

/-- A CALL that pushes. -/
def CallStep (s t : State) : Prop :=
  step s = .next t ∧ s.status = .running ∧ s.sp.val < 16 ∧ ∃ nnn, instrAt s = some (.call nnn)

/-- A RET that pops. -/
def RetStep (s t : State) : Prop :=
  step s = .next t ∧ s.status = .running ∧ s.sp.val ≠ 0 ∧ instrAt s = some .ret

/-- A stretch of a run in which every CALL is matched by a RET (R126). -/
inductive BalancedRun : State → State → Prop where
  | refl (s : State) : BalancedRun s s
  | plain {s t u : State} : PlainStep s t → BalancedRun t u → BalancedRun s u
  | nested {s t u v w : State} : CallStep s t → BalancedRun t u → RetStep u v → BalancedRun v w → BalancedRun s w

/-- Execute CALLs in a row, each in the state the one before left, with the pc advanced past each CALL as the prologue of R100
does. -/
def callAll : List Addr12 → State → Out
  | [], s => .next s
  | nnn :: rest, s => andThen (exec (.call nnn) (advance s)) (callAll rest)

end Sys2Proof.Machine
end

