-- ==== Sys2Proof/Certificates/Slice0/Obligations.lean ====
section
/-! DEFINITION. The statements about the model, for the provers. Each docstring names the rule of spec/ the statement
formalises, or says what it rests on where that is a choice of the model or an inference the spec marks as its own. In the
statements about `exec`, the state's pc already holds a + 2, where a is the instruction address (R100). -/

open Sys2Proof Sys2Proof.Machine

/-! ## The instruction word -/

/-- The 22 words of spec/95_test_vectors.md 2.1 decode as it says. That 0xF10A is refused is R76's reading, which the spec
derives (log 11). -/
def Obligations.KnownWordsDecode : Prop :=
  decode 0x0000 = .ok .halt ∧ decode 0x00EE = .ok .ret ∧ decode 0x1ABC = .ok (.jmp 0xABC) ∧
  decode 0x2FFF = .ok (.call 0xFFF) ∧ decode 0x3A5B = .ok (.se 0xA 0x5B) ∧ decode 0x4F00 = .ok (.sne 0xF 0x00) ∧
  decode 0x60FF = .ok (.ld 0x0 0xFF) ∧ decode 0x8AB1 = .ok (.or 0xA 0xB) ∧ decode 0x8FFD = .ok (.div 0xF 0xF) ∧
  decode 0xF00A = .ok .ldk ∧
  decode 0x00E0 = .error (.unknownOpcode 0x00E0) ∧ decode 0x0001 = .error (.unknownOpcode 0x0001) ∧
  decode 0x5120 = .error (.unknownOpcode 0x5120) ∧ decode 0x7001 = .error (.unknownOpcode 0x7001) ∧
  decode 0x8AB0 = .error (.unknownOpcode 0x8AB0) ∧ decode 0x8AB6 = .error (.unknownOpcode 0x8AB6) ∧
  decode 0x8ABE = .error (.unknownOpcode 0x8ABE) ∧ decode 0x9120 = .error (.unknownOpcode 0x9120) ∧
  decode 0xA123 = .error (.unknownOpcode 0xA123) ∧ decode 0xF10A = .error (.unknownOpcode 0xF10A) ∧
  decode 0xF00B = .error (.unknownOpcode 0xF00B) ∧ decode 0xFFFF = .error (.unknownOpcode 0xFFFF)

/-- R71: the four 4-bit fields and the two derived fields of every opcode. -/
def Obligations.FieldsOfTheWord : Prop :=
  ∀ w : Word, (fieldC w).toNat = w.toNat / 4096 ∧ (fieldX w).toNat = w.toNat / 256 % 16 ∧
    (fieldY w).toNat = w.toNat / 16 % 16 ∧ (fieldD w).toNat = w.toNat % 16 ∧
    (fieldNnn w).toNat = w.toNat % 4096 ∧ (fieldKk w).toNat = w.toNat % 256

/-- The operands of a decoded instruction are its fields, used unchanged (R73, which the spec derives from R71 and R25). -/
def Obligations.OperandsAreTheFields : Prop :=
  ∀ (w : Word) (i : Instr), decode w = .ok i →
    match i with
    | .halt | .ret | .ldk => True
    | .jmp nnn | .call nnn => nnn.toNat = w.toNat % 4096
    | .se x kk | .sne x kk | .ld x kk => x.val = w.toNat / 256 % 16 ∧ kk.toNat = w.toNat % 256
    | .or x y | .and x y | .xor x y | .add x y | .sub x y | .mul x y | .div x y =>
      x.val = w.toNat / 256 % 16 ∧ y.val = w.toNat / 16 % 16

/-- R74: decode gives an instruction of a mnemonic exactly where the opcode selects that mnemonic's row. -/
def Obligations.DecodeSelectsTheRow : Prop :=
  ∀ (w : Word) (m : Mnemonic),
    (opcodeRow m).selects w = true ↔ ∃ i, decode w = .ok i ∧ i.mnemonic = m

/-- No word selects two rows (R75, which the spec derives by enumeration). -/
def Obligations.RowsDoNotOverlap : Prop :=
  ∀ (w : Word) (m n : Mnemonic), (opcodeRow m).selects w = true → (opcodeRow n).selects w = true → m = n

/-- A word is refused, by name and with its raw value, exactly where no row matches it (R79, derived by the spec). -/
def Obligations.IllegalWordsAreRefused : Prop :=
  ∀ w : Word, decode w = .error (.unknownOpcode w) ↔ ∀ m, (opcodeRow m).selects w = false

/-- Decoding an encoded instruction gives it back, for every operand its encoding admits, as a word and as the first bytes of
any byte sequence. Every term of `Instr` is well formed, so no instruction is left out. -/
def Obligations.DecodeOfEncode : Prop :=
  ∀ i : Instr, i.wellFormed = true ∧ decode (encode i) = .ok i ∧
    ∀ rest, decodeBytes (encodeBytes i ++ rest) = .ok (i, rest)

/-- Each instruction has one word: what a word decodes to encodes to that word. -/
def Obligations.EncodeOfDecode : Prop :=
  ∀ (w : Word) (i : Instr), decode w = .ok i → encode i = w

/-- The assembler takes the line of every instruction back to it, gives an instruction only for that instruction's own line,
and rejects `nnn > 0xFFF` and `kk > 0xFF` (R82; log 24). -/
def Obligations.AssemblerAcceptsInstructionsOnly : Prop :=
  (∀ i : Instr, assemble i.asm = some i) ∧
  (∀ (l : AsmLine) (i : Instr), assemble l = some i → i.asm = l) ∧
  (∀ n, n > 0xFFF → assemble ⟨.JMP, [.num n]⟩ = none ∧ assemble ⟨.CALL, [.num n]⟩ = none) ∧
  (∀ x k, k > 0xFF → assemble ⟨.SE, [.reg x, .num k]⟩ = none ∧ assemble ⟨.SNE, [.reg x, .num k]⟩ = none ∧
    assemble ⟨.LD, [.reg x, .num k]⟩ = none)

/-! ## The cycle -/

/-- A fetch whose two bytes exist reads them high byte first, at any parity of the address; any other fetch gives no word.
The bound is the spec's decision D2 and the odd fetch its decision D3 (log 9, 10). -/
def Obligations.FetchIsBigEndian : Prop :=
  ∀ (m : Memory) (a : Word),
    (a.toNat + 1 ≤ 4095 → ∃ w, fetchWord m a = some w ∧
      w.toNat = 256 * (m.readByte a.toNat).toNat + (m.readByte (a.toNat + 1)).toNat) ∧
    (4095 < a.toNat + 1 → fetchWord m a = none)

/-- While Running (R100), where the two bytes at the pc decode to i, the step is: advance the pc by 2, then execute i. -/
def Obligations.StepRunsTheDecodedInstruction : Prop :=
  ∀ (s : State) (i : Instr), s.status = .running → s.pc.toNat + 1 ≤ 4095 →
    decode (wordOfBytes (s.mem.readByte s.pc.toNat) (s.mem.readByte (s.pc.toNat + 1))) = .ok i →
    step s = exec i (s.setPc (s.pc + 2))

/-- A fetched word that no row matches ends the run with its raw value and address, with the pc at a + 2 and nothing else changed
(R80, R106; the record's fields and the pc are decision D7; log 13). -/
def Obligations.UnknownWordEndsTheRun : Prop :=
  ∀ (s : State) (w : Word), s.status = .running → fetchWord s.mem s.pc = some w →
    (∀ m, (opcodeRow m).selects w = false) →
    ∃ t, step s = .next t ∧
      t.status = .faulted { kind := .unknownOpcode, opcode := some w, addr := s.pc, reg := none } ∧
      t.pc = s.pc + 2 ∧ Frame [] s t

/-- A fetch past byte 4095 ends the run with FetchBoundsFault and leaves the pc (decisions D2 and D7; log 9, 13). -/
def Obligations.FetchPastTheEndEndsTheRun : Prop :=
  ∀ s : State, s.status = .running → 4095 < s.pc.toNat + 1 →
    ∃ t, step s = .next t ∧
      t.status = .faulted { kind := .fetchBounds, opcode := none, addr := s.pc, reg := none } ∧
      t.pc = s.pc ∧ Frame [] s t

/-- A step answers a next state exactly where there is an instruction to run or a key event to take: it is refused only where
the spec has no step, after the run (decision D9; log 7) and in a wait with no key event to come (R101, R219; log 5). THE
MODEL'S CHOICE: an Idle block has a step, which starts the run (log 6). -/
def Obligations.StepStopsOnlyWhereTheSpecHasNoStep : Prop :=
  ∀ s : State,
    ((s.status = .idle ∨ s.status = .running ∨ (s.status = .waitKey ∧ s.keys ≠ [])) → ∃ t, step s = .next t) ∧
    ((s.status = .waitKey ∧ s.keys = []) → step s = .refused .waitingForKey) ∧
    ((s.status = .halted ∨ ∃ r, s.status = .faulted r) → step s = .refused .runEnded)

/-- THE MODEL'S CHOICE (log 6): a step asked of an Idle block is the host's run() followed by the first cycle. -/
def Obligations.IdleStepStartsTheRun : Prop :=
  ∀ s : State, s.status = .idle →
    hostRun s = .next (s.setStatus .running) ∧ step s = step (s.setStatus .running)

/-- Executing an instruction always answers a next state: no instruction is refused and none stops the machine. -/
def Obligations.EveryInstructionExecutes : Prop := ∀ (i : Instr) (s : State), ∃ t, exec i s = .next t

/-! ## HALT and control flow -/

/-- HALT (R103): the status becomes Halted, and nothing else changes; the pc stays at a + 2, as the spec derives. -/
def Obligations.HaltEndsTheRun : Prop :=
  decode 0x0000 = .ok .halt ∧
  ∀ s : State, ∃ t, exec .halt s = .next t ∧ t.status = .halted ∧ t.pc = s.pc ∧ Frame [] s t

/-- R121: JMP nnn sets the pc to nnn, which may be odd, and changes nothing else. -/
def Obligations.JmpSetsThePc : Prop :=
  ∀ nnn : Addr12, decode (BitVec.ofNat 16 (0x1000 + nnn.toNat)) = .ok (.jmp nnn) ∧
    ∀ s : State, ∃ t, exec (.jmp nnn) s = .next t ∧ t.pc.toNat = nnn.toNat ∧ t.status = s.status ∧ Frame [] s t

/-- CALL nnn (R122) pushes a + 2 and jumps where sp < 16; at sp = 16 it raises StackOverflowFault with the state unchanged, the
record's fields and the pc by decision D7 (log 8, 13). -/
def Obligations.CallPushesAndJumps : Prop :=
  ∀ nnn : Addr12, decode (BitVec.ofNat 16 (0x2000 + nnn.toNat)) = .ok (.call nnn) ∧
    ∀ s : State,
      (s.sp.val < 16 → ∃ t, exec (.call nnn) s = .next t ∧ t.sp.val = s.sp.val + 1 ∧
        (∀ j : Fin 16, t.stack[j] = if j.val = s.sp.val then s.pc else s.stack[j]) ∧
        t.pc.toNat = nnn.toNat ∧ t.status = s.status ∧ KeepsRegs [] s t ∧ KeepsMemory s t ∧ t.keys = s.keys) ∧
      (s.sp.val = 16 → ∃ t, exec (.call nnn) s = .next t ∧
        FaultedBy .stackOverflow (BitVec.ofNat 16 (0x2000 + nnn.toNat)) none s t)

/-- RET (R120): pops the pc where sp > 0, and the slot keeps its value, as the spec derives; at sp = 0 it raises
StackUnderflowFault with the state unchanged, the record's fields and the pc by decision D7 (log 8, 13). -/
def Obligations.RetPopsThePc : Prop :=
  decode 0x00EE = .ok .ret ∧
  ∀ s : State,
    (s.sp.val ≠ 0 → ∃ t, exec .ret s = .next t ∧ t.sp.val + 1 = s.sp.val ∧ t.stack = s.stack ∧
      (∀ j : Fin 16, j.val + 1 = s.sp.val → t.pc = s.stack[j]) ∧
      t.status = s.status ∧ KeepsRegs [] s t ∧ KeepsMemory s t ∧ t.keys = s.keys) ∧
    (s.sp.val = 0 → ∃ t, exec .ret s = .next t ∧ FaultedBy .stackUnderflow 0x00EE none s t)

/-- SE and SNE (R123, R124): with V[x] written, one more instruction width is skipped on the comparison, and nothing else
changes. (The unwritten register is the subject of `UnwrittenReadsFault`.) -/
def Obligations.SkipsFollowTheComparison : Prop :=
  ∀ (x : RegIdx) (kk : Byte),
    decode (BitVec.ofNat 16 (0x3000 + 256 * x.val + kk.toNat)) = .ok (.se x kk) ∧
    decode (BitVec.ofNat 16 (0x4000 + 256 * x.val + kk.toNat)) = .ok (.sne x kk) ∧
    ∀ s : State, s.written x = true →
      (∃ t, exec (.se x kk) s = .next t ∧ t.pc = (if s.reg x = kk then s.pc + 2 else s.pc) ∧
        t.status = s.status ∧ Frame [] s t) ∧
      (∃ t, exec (.sne x kk) s = .next t ∧ t.pc = (if s.reg x = kk then s.pc else s.pc + 2) ∧
        t.status = s.status ∧ Frame [] s t)

/-! ## Register load and ALU -/

/-- R140: LD Vx, kk stores kk in V[x], whatever V[x] was, VF included, and changes nothing else. -/
def Obligations.LdStoresTheImmediate : Prop :=
  ∀ (x : RegIdx) (kk : Byte), decode (BitVec.ofNat 16 (0x6000 + 256 * x.val + kk.toNat)) = .ok (.ld x kk) ∧
    ∀ s : State, ∃ t, exec (.ld x kk) s = .next t ∧ t.reg x = kk ∧ t.written x = true ∧ Frame [x] s t ∧ KeepsControl s t

/-- R141, R142, R143: OR, AND and XOR of the two registers into V[x], bit by bit; VF changes only as the destination. -/
def Obligations.LogicResults : Prop :=
  ∀ x y : RegIdx,
    decode (BitVec.ofNat 16 (0x8001 + 256 * x.val + 16 * y.val)) = .ok (.or x y) ∧
    decode (BitVec.ofNat 16 (0x8002 + 256 * x.val + 16 * y.val)) = .ok (.and x y) ∧
    decode (BitVec.ofNat 16 (0x8003 + 256 * x.val + 16 * y.val)) = .ok (.xor x y) ∧
    ∀ s : State, s.written x = true → s.written y = true →
      (∃ t, exec (.or x y) s = .next t ∧ (t.reg x).toNat = (s.reg x).toNat ||| (s.reg y).toNat ∧
        Frame [x] s t ∧ t.written x = true ∧ KeepsControl s t) ∧
      (∃ t, exec (.and x y) s = .next t ∧ (t.reg x).toNat = (s.reg x).toNat &&& (s.reg y).toNat ∧
        Frame [x] s t ∧ t.written x = true ∧ KeepsControl s t) ∧
      (∃ t, exec (.xor x y) s = .next t ∧ (t.reg x).toNat = (s.reg x).toNat ^^^ (s.reg y).toNat ∧
        Frame [x] s t ∧ t.written x = true ∧ KeepsControl s t)

/-- ADD (R144). VF is the carry out, written last; that it wins where x = 0xF is R149's reading of the table's order (log 12). -/
def Obligations.AddResult : Prop :=
  ∀ x y : RegIdx, decode (BitVec.ofNat 16 (0x8004 + 256 * x.val + 16 * y.val)) = .ok (.add x y) ∧
    ∀ s : State, s.written x = true → s.written y = true →
      ∃ t, exec (.add x y) s = .next t ∧
        (x ≠ 0xF → (t.reg x).toNat = ((s.reg x).toNat + (s.reg y).toNat) % 256) ∧
        (t.reg 0xF).toNat = (if (s.reg x).toNat + (s.reg y).toNat > 255 then 1 else 0) ∧
        t.written x = true ∧ t.written 0xF = true ∧ Frame [x, 0xF] s t ∧ KeepsControl s t

/-- SUB (R145). VF is 1 where no borrow occurs, written last; that it wins where x = 0xF is R149's reading of the table's order
(log 12). -/
def Obligations.SubResult : Prop :=
  ∀ x y : RegIdx, decode (BitVec.ofNat 16 (0x8005 + 256 * x.val + 16 * y.val)) = .ok (.sub x y) ∧
    ∀ s : State, s.written x = true → s.written y = true →
      ∃ t, exec (.sub x y) s = .next t ∧
        (x ≠ 0xF → (t.reg x).toNat = ((s.reg x).toNat + 256 - (s.reg y).toNat) % 256) ∧
        (t.reg 0xF).toNat = (if (s.reg x).toNat ≥ (s.reg y).toNat then 1 else 0) ∧
        t.written x = true ∧ t.written 0xF = true ∧ Frame [x, 0xF] s t ∧ KeepsControl s t

/-- MUL (R146). That VF's overflow means a product above 255 is the spec's own inference (log 15), and that VF wins where
x = 0xF is R149's reading of the table's order (log 12). -/
def Obligations.MulResult : Prop :=
  ∀ x y : RegIdx, decode (BitVec.ofNat 16 (0x800C + 256 * x.val + 16 * y.val)) = .ok (.mul x y) ∧
    ∀ s : State, s.written x = true → s.written y = true →
      ∃ t, exec (.mul x y) s = .next t ∧
        (x ≠ 0xF → (t.reg x).toNat = (s.reg x).toNat * (s.reg y).toNat % 256) ∧
        (t.reg 0xF).toNat = (if (s.reg x).toNat * (s.reg y).toNat > 255 then 1 else 0) ∧
        t.written x = true ∧ t.written 0xF = true ∧ Frame [x, 0xF] s t ∧ KeepsControl s t

/-- DIV (R147). The quotient goes to V[x] and the remainder of the old V[x] to VF, written last (where x = 0xF by R149's reading
of the table's order, log 12); a divisor of 0 raises DivideByZeroFault and leaves the registers unchanged. The record's fields
and the pc in the fault are decision D7 (log 8, 13). -/
def Obligations.DivResult : Prop :=
  ∀ x y : RegIdx, decode (BitVec.ofNat 16 (0x800D + 256 * x.val + 16 * y.val)) = .ok (.div x y) ∧
    ∀ s : State, s.written x = true → s.written y = true →
      (s.reg y ≠ 0 → ∃ t, exec (.div x y) s = .next t ∧
        (x ≠ 0xF → (t.reg x).toNat = (s.reg x).toNat / (s.reg y).toNat) ∧
        (t.reg 0xF).toNat = (s.reg x).toNat % (s.reg y).toNat ∧
        t.written x = true ∧ t.written 0xF = true ∧ Frame [x, 0xF] s t ∧ KeepsControl s t) ∧
      (s.reg y = 0 → ∃ t, exec (.div x y) s = .next t ∧
        FaultedBy .divideByZero (BitVec.ofNat 16 (0x800D + 256 * x.val + 16 * y.val)) none s t)

/-- R150: LD, OR, AND and XOR with another destination leave VF and its written bit as they were. -/
def Obligations.LoadAndLogicKeepVf : Prop :=
  ∀ (x y : RegIdx) (kk : Byte) (s t : State), x ≠ 0xF →
    (exec (.ld x kk) s = .next t ∨ exec (.or x y) s = .next t ∨ exec (.and x y) s = .next t ∨
      exec (.xor x y) s = .next t) →
    t.reg 0xF = s.reg 0xF ∧ t.written 0xF = s.written 0xF

/-- The first register an instruction reads, V[x] before V[y], whose written bit is clear is reported by
UnwrittenRegisterRead, before any other fault of the instruction, with nothing else changed (R185, R188; decision D4;
log 17). -/
def Obligations.UnwrittenReadsFault : Prop :=
  ∀ (i : Instr) (s : State) (r : RegIdx), (Reads i).find? (fun q => !s.written q) = some r →
    ∃ t, exec i s = .next t ∧ FaultedBy .unwrittenRegisterRead (encode i) (some r) s t

/-! ## Whole-machine rules -/

/-- The writes of the table of R22: executing an instruction changes no register outside its row, and a key event none but
V0, which only a character writes. -/
def Obligations.RegisterWritesAreListed : Prop :=
  (∀ (i : Instr) (s t : State), exec i s = .next t → KeepsRegs (Writes i) s t) ∧
  (∀ (s : State) (code : Nat), KeepsRegs [0] s (onKey (.char code) s)) ∧
  (∀ s : State, KeepsRegs [] s (onKey .cancel s) ∧ KeepsRegs [] s (onKey .other s))

/-- The reads of the table of R22: two running states that agree but for registers the instruction does not read give next
states that agree in everything but those registers; where no fault is raised, in what is written too. -/
def Obligations.RegisterReadsAreListed : Prop :=
  ∀ (i : Instr) (s s' t : State), AgreeOn (Reads i) s s' → s.status = .running → exec i s = .next t →
    ∃ t', exec i s' = .next t' ∧ AgreeOn (Reads i) t t' ∧
      ((∀ r, t.status ≠ .faulted r) → AgreeOn (Writes i) t t')

/-- R30: sp stays in 0..16; no instruction but CALL and RET, no key event, no load and no start of a run changes the stack or
sp; CALL at 16 and RET at 0 change no register, stack slot, sp or byte of memory. -/
def Obligations.StackChangesOnlyByCallAndRet : Prop :=
  (∀ s : State, s.sp.val ≤ 16) ∧
  (∀ (i : Instr) (s t : State), (∀ nnn, i ≠ .call nnn) → i ≠ .ret → exec i s = .next t → KeepsStack s t) ∧
  (∀ (e : KeyEvent) (s t : State), keyPort e s = .next t → KeepsStack s t) ∧
  (∀ (bytes : List Byte) (start : Nat) (s t : State), hostLoad bytes start s = .next t → KeepsStack s t) ∧
  (∀ s t : State, hostRun s = .next t → KeepsStack s t) ∧
  (∀ (nnn : Addr12) (s : State), s.sp.val = 16 →
    ∃ t r, exec (.call nnn) s = .next t ∧ t.status = .faulted r ∧ r.kind = .stackOverflow ∧ Frame [] s t) ∧
  (∀ s : State, s.sp.val = 0 →
    ∃ t r, exec .ret s = .next t ∧ t.status = .faulted r ∧ r.kind = .stackUnderflow ∧ Frame [] s t)

/-- No step writes memory (R51). Outside WaitKey none consumes a key event (R173, R197), and in WaitKey each consumes exactly one
(R219; the events to come are a list, log 4). -/
def Obligations.StepKeepsMemory : Prop :=
  ∀ s t : State, step s = .next t → t.mem = s.mem ∧ (s.status ≠ .waitKey → t.keys = s.keys) ∧
    (s.status = .waitKey → ∃ e, s.keys = e :: t.keys)

/-- Every step keeps the invariant: memory in canonical form (log 20), every occupied slot at most 4096, and the pc in
0..4098 (R28, derived by the spec). -/
def Obligations.StepKeepsTheInvariant : Prop := ∀ s t : State, MachineInv s → step s = .next t → MachineInv t

/-- The invariant holds after reset, for every value of the open parameters with ENTRY_PC at most 4098, and for the model's own
reset (log 1, 2, 3). -/
def Obligations.ResetMeetsTheInvariant : Prop :=
  (∀ (p : ResetParams) (keys : List KeyEvent), p.entryPc.toNat ≤ 4098 → MachineInv (State.resetWith p keys)) ∧ MachineInv State.reset

/-- With `REG_RESET = some v` every register is written after reset, every step keeps that, and no step then raises
UnwrittenRegisterRead (R188; decision D4; log 17). -/
def Obligations.WrittenRegistersNeverFault : Prop :=
  (∀ (p : ResetParams) (keys : List KeyEvent), p.regReset.isSome = true → AllWritten (State.resetWith p keys)) ∧
  (∀ s t : State, AllWritten s → step s = .next t →
    AllWritten t ∧ ∀ r, t.status = .faulted r → r.kind ≠ .unwrittenRegisterRead)

/-- Faults are precise: a step that ends the run with a fault changes no register, slot, sp or byte of memory; the record holds
the fetched word and the instruction address; the pc is a + 2, or a for FetchBoundsFault (R183, R184; decision D7; log 8,
13). -/
def Obligations.FaultsArePrecise : Prop :=
  ∀ (s t : State) (r : FaultRecord), s.status = .running → step s = .next t → t.status = .faulted r →
    Frame [] s t ∧ r.addr = s.pc ∧ r.opcode = fetchWord s.mem s.pc ∧
      t.pc = if r.kind = .fetchBounds then s.pc else s.pc + 2

/-- A running step ends in a fault of a kind exactly where that kind's cause holds, in the priority of R185 (R180; decisions D2
and D4; log 9, 17). -/
def Obligations.FaultsHaveTheirCauses : Prop :=
  ∀ (s : State) (k : RunFault), s.status = .running →
    ((∃ t r, step s = .next t ∧ t.status = .faulted r ∧ r.kind = k) ↔
      match k with
      | .fetchBounds => 4095 < s.pc.toNat + 1
      | .unknownOpcode => ∃ w, fetchWord s.mem s.pc = some w ∧ ∀ m, (opcodeRow m).selects w = false
      | .stackOverflow => s.sp.val = 16 ∧ ∃ nnn, instrAt s = some (.call nnn)
      | .stackUnderflow => s.sp.val = 0 ∧ instrAt s = some .ret
      | .divideByZero => ∃ x y, instrAt s = some (.div x y) ∧ s.written x = true ∧ s.written y = true ∧ s.reg y = 0
      | .unwrittenRegisterRead => ∃ i q, instrAt s = some i ∧ q ∈ Reads i ∧ s.written q = false)

/-- From Running a step leads to Halted exactly at the halt sentinel, to WaitKey exactly at LDK, and never to Idle; from WaitKey
only to Running or WaitKey (R104, partly derived by the spec; R102). -/
def Obligations.RunEndsOnlyAtHaltOrFault : Prop :=
  (∀ s t : State, s.status = .running → step s = .next t →
    (t.status = .halted ↔ fetchWord s.mem s.pc = some 0x0000) ∧
    (t.status = .waitKey ↔ fetchWord s.mem s.pc = some 0xF00A) ∧ t.status ≠ .idle) ∧
  (∀ s t : State, s.status = .waitKey → step s = .next t → t.status = .running ∨ t.status = .waitKey)

/-- Where each instruction leaves the pc, a being the instruction address (the table of R26; the rows of the faults rest on
decisions D2 and D7; log 9, 13). -/
def Obligations.PcAfterEachInstruction : Prop :=
  (∀ (s t : State) (i : Instr), s.status = .running → instrAt s = some i → step s = .next t →
    (∀ r, t.status ≠ .faulted r) →
    match i with
    | .ret => ∀ j : Fin 16, j.val + 1 = s.sp.val → t.pc = s.stack[j]
    | .jmp nnn | .call nnn => t.pc.toNat = nnn.toNat
    | .se x kk => t.pc = if s.reg x = kk then s.pc + 4 else s.pc + 2
    | .sne x kk => t.pc = if s.reg x ≠ kk then s.pc + 4 else s.pc + 2
    | .halt | .ld _ _ | .or _ _ | .and _ _ | .xor _ _ | .add _ _ | .sub _ _ | .mul _ _ | .div _ _ | .ldk =>
      t.pc = s.pc + 2) ∧
  (∀ s t : State, s.status = .waitKey → step s = .next t → t.pc = s.pc)

/-- A CALL, a stretch of the run in which every CALL is matched by a RET, and a RET lead back to a + 2, with sp as it was
before the CALL (R126, derived by the spec). -/
def Obligations.CallReturnsToTheNextInstruction : Prop :=
  ∀ s t u v : State, CallStep s t → BalancedRun t u → RetStep u v →
    v.pc = s.pc + 2 ∧ v.sp = s.sp ∧ v.status = .running

/-- CALLs nest to a depth of 16: any that fit succeed, and the next CALL at depth 16 raises StackOverflowFault (R122, R126). -/
def Obligations.SixteenCallsNest : Prop :=
  ∀ (targets : List Addr12) (s : State), s.sp.val + targets.length ≤ 16 →
    ∃ t, callAll targets s = .next t ∧ t.sp.val = s.sp.val + targets.length ∧ t.status = s.status ∧
      (t.sp.val = 16 → ∀ nnn, ∃ u r, exec (.call nnn) (advance t) = .next u ∧ u.status = .faulted r ∧
        r.kind = .stackOverflow)

/-- Return addresses below the depth `d` are kept by every step but the RET that pops slot d - 1 (R30; what makes R126's pairing
hold). A step of an Idle block is log 6. -/
def Obligations.OuterFramesAreKept : Prop :=
  ∀ (d : Nat) (f : Vector Word 16) (s t : State), HoldsFrames d f s → step s = .next t →
    ¬ (0 < d ∧ s.sp.val = d ∧ s.status ≠ .waitKey ∧ instrAt s = some .ret) → HoldsFrames d f t

/-- Call-stack slots at or above sp cannot be observed: two states that differ only there step to states that differ only there
(R212, derived by the spec; log 2). -/
def Obligations.DeadSlotsAreUnobservable : Prop :=
  ∀ s s' t : State, AgreeOnLive s s' → step s = .next t → ∃ t', step s' = .next t' ∧ AgreeOnLive t t'

/-! ## Key read -/

/-- LDK waits, and the key event that ends the wait writes V0 with the low 8 bits of a character's code point, or nothing on
Cancel; any other event changes nothing (R171, R172; the form of the events is decision D11; log 18; that 0xFx0A with another
x is no LDK is R76's reading; log 11). -/
def Obligations.LdkReadsOneKey : Prop :=
  decode 0xF00A = .ok .ldk ∧
  (∀ x : RegIdx, x ≠ 0 → decode (BitVec.ofNat 16 (0xF00A + 256 * x.val)) =
    .error (.unknownOpcode (BitVec.ofNat 16 (0xF00A + 256 * x.val)))) ∧
  (∀ s : State, ∃ t, exec .ldk s = .next t ∧ t.status = .waitKey ∧ t.pc = s.pc ∧ Frame [] s t) ∧
  (∀ s : State, s.status = .waitKey →
    (∀ code, ∃ t, keyPort (.char code) s = .next t ∧ (t.reg 0).toNat = code % 256 ∧ t.written 0 = true ∧
      t.status = .running ∧ t.pc = s.pc ∧ Frame [0] s t) ∧
    (∃ t, keyPort .cancel s = .next t ∧ t.status = .running ∧ t.pc = s.pc ∧ Frame [] s t) ∧
    keyPort .other s = .next s)

/-- THE MODEL'S CHOICE (log 4): in WaitKey a step takes the next of the key events to come through the key port; with none to
come there is no step (R101, R219; log 5). -/
def Obligations.StepDeliversTheNextKey : Prop :=
  ∀ s : State, s.status = .waitKey →
    (s.keys = [] → step s = .refused .waitingForKey) ∧
    (∀ e rest, s.keys = e :: rest → step s = keyPort e (s.setKeys rest))

/-- A Key Source that delivers only Other events, or none, leaves the engine in WaitKey, with no register, slot or byte changed,
for as many steps of the loop of run() as there are events, each of which takes one; then there is none (R101, R173, R219;
log 4, 5). -/
def Obligations.OtherKeysNeverEndTheWait : Prop :=
  ∀ (n : Nat) (s : State), s.status = .waitKey → (∀ e ∈ s.keys, e = .other) →
    ∃ t, runLoop n s = .next t ∧ KeepsControl s t ∧ KeepsRegs [] s t ∧ KeepsStack s t ∧ KeepsMemory s t ∧
      t.keys = s.keys.drop n ∧ (s.keys.length ≤ n → step t = .refused .waitingForKey)

/-! ## The host -/

/-- Which requests are refused in which status, and that an accepted state read answers every field of the state (the table
of R201, R35; decisions D9 and D14; log 21, 25). -/
def Obligations.HostRequestsByStatus : Prop :=
  ∀ s : State,
    (∀ p, hostReset p s = .refused (.requestRefused .reset) ↔ s.status = .running ∨ s.status = .waitKey) ∧
    (∀ bytes start, hostLoad bytes start s = .refused (.requestRefused .load) ↔
      s.status = .running ∨ s.status = .waitKey) ∧
    (hostRun s = .refused (.requestRefused .run) ↔ s.status ≠ .idle) ∧
    (observe s = .error (.requestRefused .readState) ↔ s.status = .running ∨ s.status = .waitKey) ∧
    (∀ t, observe s = .ok t ↔ t = s ∧ s.status ≠ .running ∧ s.status ≠ .waitKey) ∧
    (∀ e, keyPort e s = .refused (.requestRefused .keyEvent) ↔ s.status ≠ .waitKey)

/-- load writes exactly its bytes, keeps memory canonical and changes nothing else where they fit; else it answers BoundsFault
(R55; that nothing is then written is decision D10; log 14, 20). -/
def Obligations.LoadWritesExactlyItsBytes : Prop :=
  ∀ (bytes : List Byte) (start : Nat) (s : State), s.status ≠ .running → s.status ≠ .waitKey → s.mem.wf = true →
    (start + bytes.length ≤ 4096 → ∃ t, hostLoad bytes start s = .next t ∧ t.mem.wf = true ∧
      (∀ (k : Nat) (h : k < bytes.length), t.mem.readByte (start + k) = bytes[k]) ∧
      (∀ a, a < start ∨ start + bytes.length ≤ a → t.mem.readByte a = s.mem.readByte a) ∧
      KeepsRegs [] s t ∧ KeepsStack s t ∧ KeepsControl s t ∧ t.keys = s.keys) ∧
    (4096 < start + bytes.length → hostLoad bytes start s = .fault (.boundsFault start bytes.length))

/-- An accepted reset gives every piece of state the value of R216, for every value of the open parameters (R210; grounded on
decisions D4, D5, D6 and D15); the key events to come, which are the environment's, stay (log 4, 21). The register values and
the pc of the model's own reset are its choice (log 1, 3). -/
def Obligations.ResetState : Prop :=
  (∀ (p : ResetParams) (s : State), s.status ≠ .running → s.status ≠ .waitKey →
    ∃ t, hostReset p s = .next t ∧ t = State.resetWith p s.keys ∧
      (∀ v, p.regReset = some v → ∀ r, t.reg r = v[r] ∧ t.written r = true) ∧
      (p.regReset = none → ∀ r, t.written r = false) ∧
      t.pc = p.entryPc ∧ t.stack = p.slots ∧ t.sp.val = 0 ∧ (∀ a, t.mem.readByte a = 0) ∧ t.status = .idle ∧
      t.keys = s.keys) ∧
  State.reset = State.resetWith ResetParams.default [] ∧ (∀ r, State.reset.reg r = 0 ∧ State.reset.written r = true) ∧
  State.reset.pc = 0 ∧ State.reset.sp.val = 0 ∧ (∀ a, State.reset.mem.readByte a = 0) ∧ State.reset.status = .idle

/-- Boot: reset, load and run() leave the program in memory, zero elsewhere, the registers as REG_RESET says, an empty call
stack, the pc at the load address and the run started (R217; decisions D4 and D6; the key events to come stay, log 4, 21). -/
def Obligations.BootStartsTheProgram : Prop :=
  ∀ (p : ResetParams) (bytes : List Byte) (start : Word) (s : State), s.status ≠ .running → s.status ≠ .waitKey →
    start.toNat + bytes.length ≤ 4096 →
    ∃ t, boot p bytes start s = .next t ∧ t.status = .running ∧ t.pc = start ∧ t.sp.val = 0 ∧ t.mem.wf = true ∧
      (∀ (k : Nat) (h : k < bytes.length), t.mem.readByte (start.toNat + k) = bytes[k]) ∧
      (∀ a, a < start.toNat ∨ start.toNat + bytes.length ≤ a → t.mem.readByte a = 0) ∧
      (∀ v, p.regReset = some v → ∀ r, t.reg r = v[r] ∧ t.written r = true) ∧
      (p.regReset = none → ∀ r, t.written r = false) ∧ t.stack = p.slots ∧ t.keys = s.keys

/-- run() is accepted from Idle only, and is then the loop from Running. The loop goes on with a step in Running and in WaitKey
with a key event to come, and takes no step in WaitKey with none; in both it has no result. It ends in Halted or Faulted(rec)
and nowhere else, that is its result, and more steps of the loop keep the state it ended in (R101, R105, R182, R219; decision
D9; that the events to come are a list is log 4, 5). -/
def Obligations.EndedRunsStayEnded : Prop :=
  (∀ (n : Nat) (s : State),
    (s.status = .idle → runFor n s = runLoop n (s.setStatus .running)) ∧
    (s.status ≠ .idle → runFor n s = .refused (.requestRefused .run))) ∧
  (∀ (n : Nat) (s : State), s.status = .running ∨ s.status = .waitKey →
    ∃ t, runLoop n s = .next t ∧
      (((t.status = .running ∨ (t.status = .waitKey ∧ t.keys ≠ [])) ∧ runResult t = none ∧ runLoop (n + 1) s = step t) ∨
        (t.status = .waitKey ∧ t.keys = [] ∧ runResult t = none ∧ ∀ k, runLoop (n + k) s = .next t) ∨
        (t.status = .halted ∧ runResult t = some .halted ∧ ∀ k, runLoop (n + k) s = .next t) ∨
        (∃ r, t.status = .faulted r ∧ runResult t = some (.faulted r) ∧ ∀ k, runLoop (n + k) s = .next t)))

/-- THE MODEL'S CHOICE (log 23): the word that `withFetchWord` places is what the next step runs, from any state whose memory is
canonical, and registers, call stack and key events stay as they were. -/
def Obligations.PlacedWordRunsNext : Prop :=
  ∀ (s : State) (w : Word) (i : Instr), s.mem.wf = true → decode w = .ok i →
    step (s.withFetchWord 16 w.toNat) = exec i (advance (s.withFetchWord 16 w.toNat)) ∧
    decodeTableWord 16 w.toNat = some i ∧ (s.withFetchWord 16 w.toNat).mem.wf = true ∧
    KeepsRegs [] s (s.withFetchWord 16 w.toNat) ∧ KeepsStack s (s.withFetchWord 16 w.toNat) ∧
    (s.withFetchWord 16 w.toNat).keys = s.keys
end

