-- ==== Sys2Proof/Laws/Decode.lean ====
section
/-! SUPPORT. The fields of a word built from fields (spec/30_encoding.md R71, R72), and the bits of a register index (R73). -/

namespace Sys2Proof

@[simp] theorem regOfBits_bitsOfReg (r : RegIdx) : regOfBits (bitsOfReg r) = r := by
  revert r; decide

@[simp] theorem bitsOfReg_regOfBits (b : BitVec 4) : bitsOfReg (regOfBits b) = b := by
  revert b; decide

theorem wordOfFields_toNat (c x y d : BitVec 4) :
    (wordOfFields c x y d).toNat = 4096 * c.toNat + 256 * x.toNat + 16 * y.toNat + d.toNat := by
  have := c.isLt; have := x.isLt; have := y.isLt; have := d.isLt
  simp only [wordOfFields, BitVec.toNat_append]
  rw [← Nat.shiftLeft_add_eq_or_of_lt d.isLt, ← Nat.shiftLeft_add_eq_or_of_lt y.isLt,
    ← Nat.shiftLeft_add_eq_or_of_lt x.isLt]
  simp only [Nat.shiftLeft_eq]
  omega

theorem wordOfAddr_toNat (c : BitVec 4) (nnn : Addr12) : (wordOfAddr c nnn).toNat = 4096 * c.toNat + nnn.toNat := by
  simp only [wordOfAddr, BitVec.toNat_append]
  rw [← Nat.shiftLeft_add_eq_or_of_lt nnn.isLt]
  simp only [Nat.shiftLeft_eq]
  omega

theorem wordOfImm_toNat (c x : BitVec 4) (kk : Byte) :
    (wordOfImm c x kk).toNat = 4096 * c.toNat + 256 * x.toNat + kk.toNat := by
  simp only [wordOfImm, BitVec.toNat_append]
  rw [← Nat.shiftLeft_add_eq_or_of_lt kk.isLt, ← Nat.shiftLeft_add_eq_or_of_lt x.isLt]
  simp only [Nat.shiftLeft_eq]
  omega

theorem wordOfBytes_toNat (hi lo : Byte) : (wordOfBytes hi lo).toNat = 256 * hi.toNat + lo.toNat := by
  simp only [wordOfBytes, BitVec.toNat_append]
  rw [← Nat.shiftLeft_add_eq_or_of_lt lo.isLt]
  simp only [Nat.shiftLeft_eq]
  omega

theorem fieldC_toNat (w : Word) : (fieldC w).toNat = w.toNat / 4096 % 16 := by
  simp [fieldC, BitVec.extractLsb'_toNat, Nat.shiftRight_eq_div_pow]

theorem fieldX_toNat (w : Word) : (fieldX w).toNat = w.toNat / 256 % 16 := by
  simp [fieldX, BitVec.extractLsb'_toNat, Nat.shiftRight_eq_div_pow]

theorem fieldY_toNat (w : Word) : (fieldY w).toNat = w.toNat / 16 % 16 := by
  simp [fieldY, BitVec.extractLsb'_toNat, Nat.shiftRight_eq_div_pow]

theorem fieldD_toNat (w : Word) : (fieldD w).toNat = w.toNat % 16 := by
  simp [fieldD, BitVec.extractLsb'_toNat]

theorem fieldNnn_toNat (w : Word) : (fieldNnn w).toNat = w.toNat % 4096 := by
  simp [fieldNnn, BitVec.extractLsb'_toNat]

theorem fieldKk_toNat (w : Word) : (fieldKk w).toNat = w.toNat % 256 := by
  simp [fieldKk, BitVec.extractLsb'_toNat]

theorem highByte_toNat (w : Word) : (highByte w).toNat = w.toNat / 256 := by
  have := w.isLt
  simp only [highByte, BitVec.extractLsb'_toNat, Nat.shiftRight_eq_div_pow]
  omega

theorem lowByte_toNat (w : Word) : (lowByte w).toNat = w.toNat % 256 := by
  simp [lowByte, BitVec.extractLsb'_toNat]

/-- The two bytes of a word give the word back (R54). -/
@[simp] theorem wordOfBytes_high_low (w : Word) : wordOfBytes (highByte w) (lowByte w) = w := by
  apply BitVec.eq_of_toNat_eq
  rw [wordOfBytes_toNat, highByte_toNat, lowByte_toNat]
  omega

section
variable (c x y d : BitVec 4)

@[simp] theorem fieldC_wordOfFields : fieldC (wordOfFields c x y d) = c := by
  apply BitVec.eq_of_toNat_eq; rw [fieldC_toNat, wordOfFields_toNat]; omega

@[simp] theorem fieldX_wordOfFields : fieldX (wordOfFields c x y d) = x := by
  apply BitVec.eq_of_toNat_eq; rw [fieldX_toNat, wordOfFields_toNat]; omega

@[simp] theorem fieldY_wordOfFields : fieldY (wordOfFields c x y d) = y := by
  apply BitVec.eq_of_toNat_eq; rw [fieldY_toNat, wordOfFields_toNat]; omega

@[simp] theorem fieldD_wordOfFields : fieldD (wordOfFields c x y d) = d := by
  apply BitVec.eq_of_toNat_eq; rw [fieldD_toNat, wordOfFields_toNat]; omega

end

@[simp] theorem fieldC_wordOfAddr (c : BitVec 4) (nnn : Addr12) : fieldC (wordOfAddr c nnn) = c := by
  apply BitVec.eq_of_toNat_eq; rw [fieldC_toNat, wordOfAddr_toNat]; omega

@[simp] theorem fieldNnn_wordOfAddr (c : BitVec 4) (nnn : Addr12) : fieldNnn (wordOfAddr c nnn) = nnn := by
  apply BitVec.eq_of_toNat_eq; rw [fieldNnn_toNat, wordOfAddr_toNat]; omega

@[simp] theorem fieldC_wordOfImm (c x : BitVec 4) (kk : Byte) : fieldC (wordOfImm c x kk) = c := by
  apply BitVec.eq_of_toNat_eq; rw [fieldC_toNat, wordOfImm_toNat]; omega

@[simp] theorem fieldX_wordOfImm (c x : BitVec 4) (kk : Byte) : fieldX (wordOfImm c x kk) = x := by
  apply BitVec.eq_of_toNat_eq; rw [fieldX_toNat, wordOfImm_toNat]; omega

@[simp] theorem fieldKk_wordOfImm (c x : BitVec 4) (kk : Byte) : fieldKk (wordOfImm c x kk) = kk := by
  apply BitVec.eq_of_toNat_eq; rw [fieldKk_toNat, wordOfImm_toNat]; omega

/-- A word is its four fields (R71). -/
theorem wordOfFields_fields (w : Word) : wordOfFields (fieldC w) (fieldX w) (fieldY w) (fieldD w) = w := by
  apply BitVec.eq_of_toNat_eq
  rw [wordOfFields_toNat, fieldC_toNat, fieldX_toNat, fieldY_toNat, fieldD_toNat]
  omega

theorem wordOfAddr_fields (w : Word) : wordOfAddr (fieldC w) (fieldNnn w) = w := by
  apply BitVec.eq_of_toNat_eq
  rw [wordOfAddr_toNat, fieldC_toNat, fieldNnn_toNat]
  omega

theorem wordOfImm_fields (w : Word) : wordOfImm (fieldC w) (fieldX w) (fieldKk w) = w := by
  apply BitVec.eq_of_toNat_eq
  rw [wordOfImm_toNat, fieldC_toNat, fieldX_toNat, fieldKk_toNat]
  omega

end Sys2Proof
end

