-- ==== Sys2Proof/Laws/Memory.lean ====
section
/-! SUPPORT. The laws of memory (spec/20_memory.md R50, R55, R56): reads after writes, and that every memory operation keeps the
canonical form. -/

namespace Sys2Proof.Machine

@[simp] theorem readByte_nil (a : Nat) : Memory.readByte [] a = 0 := rfl

theorem readByte_consByte (a b : Nat) (v : Byte) (m : Memory) :
    (Memory.consByte a v m).readByte b = if a = b ∧ v ≠ 0#8 then v else m.readByte b := by
  unfold Memory.consByte
  by_cases hv : v = 0#8
  · simp [hv, unlistedByte]
  · rw [if_neg (show ¬ v = unlistedByte from hv)]
    by_cases h : a = b <;> simp [Memory.readByte, h, hv]

/-- A read below the first listed address gives the unlisted byte. -/
theorem readByte_of_lt {low a : Nat} {m : Memory} (h : m.wfFrom low = true) (ha : a < low) : m.readByte a = 0 := by
  induction m generalizing low with
  | nil => rfl
  | cons c m ih =>
    obtain ⟨b, v⟩ := c
    simp only [Memory.wfFrom, Bool.and_eq_true, decide_eq_true_eq] at h
    have hb : b ≠ a := by omega
    simp only [Memory.readByte, if_neg hb]
    exact ih h.2 (by omega)

theorem wfFrom_mono {low low' : Nat} {m : Memory} (h : m.wfFrom low = true) (hl : low' ≤ low) :
    m.wfFrom low' = true := by
  cases m with
  | nil => rfl
  | cons c m =>
    obtain ⟨b, v⟩ := c
    simp only [Memory.wfFrom, Bool.and_eq_true, decide_eq_true_eq] at h ⊢
    exact ⟨⟨⟨by omega, h.1.1.2⟩, h.1.2⟩, h.2⟩

theorem wfFrom_consByte {low a : Nat} {v : Byte} {m : Memory} (hl : low ≤ a) (ha : a ≤ 4095)
    (h : m.wfFrom (a + 1) = true) : (Memory.consByte a v m).wfFrom low = true := by
  unfold Memory.consByte
  split
  · exact wfFrom_mono h (by omega)
  · next hv => simp [Memory.wfFrom, hl, ha, hv, h]

theorem wfFrom_writeByte {low a : Nat} {v : Byte} {m : Memory} (h : m.wfFrom low = true) (hl : low ≤ a)
    (ha : a ≤ 4095) : (m.writeByte a v).wfFrom low = true := by
  induction m generalizing low with
  | nil => exact wfFrom_consByte hl ha rfl
  | cons c m ih =>
    obtain ⟨b, u⟩ := c
    have h' := h
    simp only [Memory.wfFrom, Bool.and_eq_true, decide_eq_true_eq] at h'
    unfold Memory.writeByte
    split
    · exact wfFrom_consByte hl ha (by
        simp only [Memory.wfFrom, Bool.and_eq_true, decide_eq_true_eq]
        exact ⟨⟨⟨by omega, h'.1.1.2⟩, h'.1.2⟩, h'.2⟩)
    · split
      · next hab => subst hab; exact wfFrom_consByte hl ha h'.2
      · simp only [Memory.wfFrom, Bool.and_eq_true, decide_eq_true_eq]
        exact ⟨h'.1, ih h'.2 (by omega)⟩

/-- A write keeps the canonical form. -/
theorem wf_writeByte {a : Nat} {v : Byte} {m : Memory} (h : m.wf = true) (ha : a ≤ 4095) :
    (m.writeByte a v).wf = true := wfFrom_writeByte h (by omega) ha

/-- A sequence of writes inside the address space keeps the canonical form. -/
theorem wf_writeBytes {start : Nat} {bytes : List Byte} {m : Memory} (h : m.wf = true)
    (hb : start + bytes.length ≤ 4096) : (m.writeBytes start bytes).wf = true := by
  induction bytes generalizing m start with
  | nil => exact h
  | cons v vs ih =>
    simp only [List.length_cons] at hb
    exact ih (wf_writeByte h (by omega)) (by omega)

theorem readByte_writeByte_from {low a b : Nat} {v : Byte} {m : Memory} (h : m.wfFrom low = true) (hl : low ≤ a) :
    (m.writeByte a v).readByte b = if a = b then v else m.readByte b := by
  induction m generalizing low with
  | nil =>
    by_cases hab : a = b <;> by_cases hv : v = 0#8 <;> simp [Memory.writeByte, readByte_consByte, hab, hv]
  | cons c m ih =>
    obtain ⟨c, u⟩ := c
    have h' := h
    simp only [Memory.wfFrom, Bool.and_eq_true, decide_eq_true_eq] at h'
    unfold Memory.writeByte
    split
    · next hac =>
      rw [readByte_consByte]
      by_cases hab : a = b
      · subst hab
        by_cases hv : v = 0#8
        · have hc : c ≠ a := by omega
          simp [hv, Memory.readByte, hc, readByte_of_lt h'.2 (by omega : a < c + 1)]
        · simp [hv]
      · simp [hab]
    · split
      · next hac =>
        subst hac
        rw [readByte_consByte]
        by_cases hab : a = b
        · subst hab
          by_cases hv : v = 0#8
          · simp [hv, readByte_of_lt h'.2 (by omega : a < a + 1)]
          · simp [hv]
        · simp [hab, Memory.readByte]
      · next hac =>
        simp only [Memory.readByte]
        by_cases hcb : c = b
        · have hab : a ≠ b := by omega
          simp [hcb, hab]
        · simp only [if_neg hcb]
          exact ih h'.2 (by omega)

/-- A read after a write: the written byte at that address, the old byte elsewhere. -/
theorem readByte_writeByte {a b : Nat} {v : Byte} {m : Memory} (h : m.wf = true) :
    (m.writeByte a v).readByte b = if a = b then v else m.readByte b :=
  readByte_writeByte_from h (by omega)

/-- A read after a sequence of writes, outside the written range. -/
theorem readByte_writeBytes_outside {start b : Nat} {bytes : List Byte} {m : Memory} (h : m.wf = true)
    (hb : start + bytes.length ≤ 4096) (ho : b < start ∨ start + bytes.length ≤ b) :
    (m.writeBytes start bytes).readByte b = m.readByte b := by
  induction bytes generalizing m start with
  | nil => rfl
  | cons v vs ih =>
    simp only [List.length_cons] at hb ho
    have hne : start ≠ b := by omega
    rw [Memory.writeBytes, ih (wf_writeByte h (by omega)) (by omega) (by omega), readByte_writeByte h, if_neg hne]

/-- A read after a sequence of writes, inside the written range. -/
theorem readByte_writeBytes_inside {start i : Nat} {bytes : List Byte} {m : Memory} (h : m.wf = true)
    (hb : start + bytes.length ≤ 4096) (hi : i < bytes.length) :
    (m.writeBytes start bytes).readByte (start + i) = bytes[i] := by
  induction bytes generalizing m start i with
  | nil => simp at hi
  | cons v vs ih =>
    simp only [List.length_cons] at hb hi
    have hwf := wf_writeByte (v := v) h (by omega : start ≤ 4095)
    cases i with
    | zero =>
      rw [Memory.writeBytes, readByte_writeBytes_outside hwf (by omega) (by omega), readByte_writeByte h]
      simp
    | succ i =>
      have := ih (start := start + 1) (i := i) hwf (by omega) (by omega)
      rw [Memory.writeBytes]
      simpa [Nat.add_assoc, Nat.add_comm 1 i] using this

end Sys2Proof.Machine
end

