-- ==== Sys2Proof/Laws/State.lean ====
section
/-! SUPPORT. What each update of the state leaves in each field, so that no proof unfolds a record update, and the reads of a
register file after a write. -/

namespace Sys2Proof.Machine

/-! ## `setPc` -/

@[simp] theorem setPc_V (s : State) (a : Word) : (s.setPc a).V = s.V := rfl
@[simp] theorem setPc_Vdef (s : State) (a : Word) : (s.setPc a).Vdef = s.Vdef := rfl
@[simp] theorem setPc_pc (s : State) (a : Word) : (s.setPc a).pc = a := rfl
@[simp] theorem setPc_stack (s : State) (a : Word) : (s.setPc a).stack = s.stack := rfl
@[simp] theorem setPc_sp (s : State) (a : Word) : (s.setPc a).sp = s.sp := rfl
@[simp] theorem setPc_mem (s : State) (a : Word) : (s.setPc a).mem = s.mem := rfl
@[simp] theorem setPc_status (s : State) (a : Word) : (s.setPc a).status = s.status := rfl
@[simp] theorem setPc_keys (s : State) (a : Word) : (s.setPc a).keys = s.keys := rfl
@[simp] theorem setPc_reg (s : State) (a : Word) (i : RegIdx) : (s.setPc a).reg i = s.reg i := rfl
@[simp] theorem setPc_written (s : State) (a : Word) (i : RegIdx) : (s.setPc a).written i = s.written i := rfl

/-! ## `setStatus` -/

@[simp] theorem setStatus_V (s : State) (v : Status) : (s.setStatus v).V = s.V := rfl
@[simp] theorem setStatus_Vdef (s : State) (v : Status) : (s.setStatus v).Vdef = s.Vdef := rfl
@[simp] theorem setStatus_pc (s : State) (v : Status) : (s.setStatus v).pc = s.pc := rfl
@[simp] theorem setStatus_stack (s : State) (v : Status) : (s.setStatus v).stack = s.stack := rfl
@[simp] theorem setStatus_sp (s : State) (v : Status) : (s.setStatus v).sp = s.sp := rfl
@[simp] theorem setStatus_mem (s : State) (v : Status) : (s.setStatus v).mem = s.mem := rfl
@[simp] theorem setStatus_status (s : State) (v : Status) : (s.setStatus v).status = v := rfl
@[simp] theorem setStatus_keys (s : State) (v : Status) : (s.setStatus v).keys = s.keys := rfl
@[simp] theorem setStatus_reg (s : State) (v : Status) (i : RegIdx) : (s.setStatus v).reg i = s.reg i := rfl
@[simp] theorem setStatus_written (s : State) (v : Status) (i : RegIdx) : (s.setStatus v).written i = s.written i := rfl

/-! ## `setMem` -/

@[simp] theorem setMem_V (s : State) (m : Memory) : (s.setMem m).V = s.V := rfl
@[simp] theorem setMem_Vdef (s : State) (m : Memory) : (s.setMem m).Vdef = s.Vdef := rfl
@[simp] theorem setMem_pc (s : State) (m : Memory) : (s.setMem m).pc = s.pc := rfl
@[simp] theorem setMem_stack (s : State) (m : Memory) : (s.setMem m).stack = s.stack := rfl
@[simp] theorem setMem_sp (s : State) (m : Memory) : (s.setMem m).sp = s.sp := rfl
@[simp] theorem setMem_mem (s : State) (m : Memory) : (s.setMem m).mem = m := rfl
@[simp] theorem setMem_status (s : State) (m : Memory) : (s.setMem m).status = s.status := rfl
@[simp] theorem setMem_keys (s : State) (m : Memory) : (s.setMem m).keys = s.keys := rfl
@[simp] theorem setMem_reg (s : State) (m : Memory) (i : RegIdx) : (s.setMem m).reg i = s.reg i := rfl
@[simp] theorem setMem_written (s : State) (m : Memory) (i : RegIdx) : (s.setMem m).written i = s.written i := rfl

/-! ## `setKeys` -/

@[simp] theorem setKeys_V (s : State) (ks : List KeyEvent) : (s.setKeys ks).V = s.V := rfl
@[simp] theorem setKeys_Vdef (s : State) (ks : List KeyEvent) : (s.setKeys ks).Vdef = s.Vdef := rfl
@[simp] theorem setKeys_pc (s : State) (ks : List KeyEvent) : (s.setKeys ks).pc = s.pc := rfl
@[simp] theorem setKeys_stack (s : State) (ks : List KeyEvent) : (s.setKeys ks).stack = s.stack := rfl
@[simp] theorem setKeys_sp (s : State) (ks : List KeyEvent) : (s.setKeys ks).sp = s.sp := rfl
@[simp] theorem setKeys_mem (s : State) (ks : List KeyEvent) : (s.setKeys ks).mem = s.mem := rfl
@[simp] theorem setKeys_status (s : State) (ks : List KeyEvent) : (s.setKeys ks).status = s.status := rfl
@[simp] theorem setKeys_keys (s : State) (ks : List KeyEvent) : (s.setKeys ks).keys = ks := rfl
@[simp] theorem setKeys_reg (s : State) (ks : List KeyEvent) (i : RegIdx) : (s.setKeys ks).reg i = s.reg i := rfl
@[simp] theorem setKeys_written (s : State) (ks : List KeyEvent) (i : RegIdx) : (s.setKeys ks).written i = s.written i := rfl

/-! ## `writeReg` -/

@[simp] theorem writeReg_V (s : State) (r : RegIdx) (v : Byte) : (s.writeReg r v).V = s.V.set r.val v r.isLt := rfl
@[simp] theorem writeReg_Vdef (s : State) (r : RegIdx) (v : Byte) : (s.writeReg r v).Vdef = s.Vdef.set r.val true r.isLt := rfl
@[simp] theorem writeReg_pc (s : State) (r : RegIdx) (v : Byte) : (s.writeReg r v).pc = s.pc := rfl
@[simp] theorem writeReg_stack (s : State) (r : RegIdx) (v : Byte) : (s.writeReg r v).stack = s.stack := rfl
@[simp] theorem writeReg_sp (s : State) (r : RegIdx) (v : Byte) : (s.writeReg r v).sp = s.sp := rfl
@[simp] theorem writeReg_mem (s : State) (r : RegIdx) (v : Byte) : (s.writeReg r v).mem = s.mem := rfl
@[simp] theorem writeReg_status (s : State) (r : RegIdx) (v : Byte) : (s.writeReg r v).status = s.status := rfl
@[simp] theorem writeReg_keys (s : State) (r : RegIdx) (v : Byte) : (s.writeReg r v).keys = s.keys := rfl

/-! ## `advance` -/

@[simp] theorem advance_V (s : State) : (advance s).V = s.V := rfl
@[simp] theorem advance_Vdef (s : State) : (advance s).Vdef = s.Vdef := rfl
@[simp] theorem advance_pc (s : State) : (advance s).pc = s.pc + 2 := rfl
@[simp] theorem advance_stack (s : State) : (advance s).stack = s.stack := rfl
@[simp] theorem advance_sp (s : State) : (advance s).sp = s.sp := rfl
@[simp] theorem advance_mem (s : State) : (advance s).mem = s.mem := rfl
@[simp] theorem advance_status (s : State) : (advance s).status = s.status := rfl
@[simp] theorem advance_keys (s : State) : (advance s).keys = s.keys := rfl
@[simp] theorem advance_reg (s : State) (i : RegIdx) : (advance s).reg i = s.reg i := rfl
@[simp] theorem advance_written (s : State) (i : RegIdx) : (advance s).written i = s.written i := rfl

/-! ## `skipNext` -/

@[simp] theorem skipNext_V (s : State) : (skipNext s).V = s.V := rfl
@[simp] theorem skipNext_Vdef (s : State) : (skipNext s).Vdef = s.Vdef := rfl
@[simp] theorem skipNext_pc (s : State) : (skipNext s).pc = s.pc + 2 := rfl
@[simp] theorem skipNext_stack (s : State) : (skipNext s).stack = s.stack := rfl
@[simp] theorem skipNext_sp (s : State) : (skipNext s).sp = s.sp := rfl
@[simp] theorem skipNext_mem (s : State) : (skipNext s).mem = s.mem := rfl
@[simp] theorem skipNext_status (s : State) : (skipNext s).status = s.status := rfl
@[simp] theorem skipNext_keys (s : State) : (skipNext s).keys = s.keys := rfl
@[simp] theorem skipNext_reg (s : State) (i : RegIdx) : (skipNext s).reg i = s.reg i := rfl
@[simp] theorem skipNext_written (s : State) (i : RegIdx) : (skipNext s).written i = s.written i := rfl

/-! ## `raiseFault` -/

@[simp] theorem raiseFault_V (r : FaultRecord) (s : State) : (raiseFault r s).V = s.V := rfl
@[simp] theorem raiseFault_Vdef (r : FaultRecord) (s : State) : (raiseFault r s).Vdef = s.Vdef := rfl
@[simp] theorem raiseFault_pc (r : FaultRecord) (s : State) : (raiseFault r s).pc = s.pc := rfl
@[simp] theorem raiseFault_stack (r : FaultRecord) (s : State) : (raiseFault r s).stack = s.stack := rfl
@[simp] theorem raiseFault_sp (r : FaultRecord) (s : State) : (raiseFault r s).sp = s.sp := rfl
@[simp] theorem raiseFault_mem (r : FaultRecord) (s : State) : (raiseFault r s).mem = s.mem := rfl
@[simp] theorem raiseFault_status (r : FaultRecord) (s : State) : (raiseFault r s).status = .faulted r := rfl
@[simp] theorem raiseFault_keys (r : FaultRecord) (s : State) : (raiseFault r s).keys = s.keys := rfl
@[simp] theorem raiseFault_reg (r : FaultRecord) (s : State) (i : RegIdx) : (raiseFault r s).reg i = s.reg i := rfl
@[simp] theorem raiseFault_written (r : FaultRecord) (s : State) (i : RegIdx) : (raiseFault r s).written i = s.written i := rfl

/-! ## Reads after a register write (R10, R24) -/

theorem reg_writeReg (s : State) (r i : RegIdx) (v : Byte) :
    (s.writeReg r v).reg i = if i = r then v else s.reg i := by
  by_cases h : i = r
  · subst h; simp [State.reg, State.writeReg]
  · have h' : r.val ≠ i.val := fun e => h (Fin.ext e.symm)
    simp [State.reg, State.writeReg, h, Vector.getElem_set_ne _ _ h']

theorem written_writeReg (s : State) (r i : RegIdx) (v : Byte) :
    (s.writeReg r v).written i = if i = r then true else s.written i := by
  by_cases h : i = r
  · subst h; simp [State.written, State.writeReg]
  · have h' : r.val ≠ i.val := fun e => h (Fin.ext e.symm)
    simp [State.written, State.writeReg, h, Vector.getElem_set_ne _ _ h']

@[simp] theorem reg_writeReg_same (s : State) (r : RegIdx) (v : Byte) : (s.writeReg r v).reg r = v := by
  simp [reg_writeReg]

@[simp] theorem written_writeReg_same (s : State) (r : RegIdx) (v : Byte) : (s.writeReg r v).written r = true := by
  simp [written_writeReg]

theorem reg_writeReg_ne {s : State} {r i : RegIdx} {v : Byte} (h : i ≠ r) : (s.writeReg r v).reg i = s.reg i := by
  simp [reg_writeReg, h]

theorem written_writeReg_ne {s : State} {r i : RegIdx} {v : Byte} (h : i ≠ r) :
    (s.writeReg r v).written i = s.written i := by
  simp [written_writeReg, h]

/-! ## `writeRegAndFlag` (R149) -/


@[simp] theorem writeRegAndFlag_pc (x : RegIdx) (v f : Byte) (s : State) :
    (writeRegAndFlag x v f s).pc = s.pc := rfl
@[simp] theorem writeRegAndFlag_stack (x : RegIdx) (v f : Byte) (s : State) :
    (writeRegAndFlag x v f s).stack = s.stack := rfl
@[simp] theorem writeRegAndFlag_sp (x : RegIdx) (v f : Byte) (s : State) :
    (writeRegAndFlag x v f s).sp = s.sp := rfl
@[simp] theorem writeRegAndFlag_mem (x : RegIdx) (v f : Byte) (s : State) :
    (writeRegAndFlag x v f s).mem = s.mem := rfl
@[simp] theorem writeRegAndFlag_status (x : RegIdx) (v f : Byte) (s : State) :
    (writeRegAndFlag x v f s).status = s.status := rfl
@[simp] theorem writeRegAndFlag_keys (x : RegIdx) (v f : Byte) (s : State) :
    (writeRegAndFlag x v f s).keys = s.keys := rfl

/-- The flag is written last, so it is what VF holds, whatever x is (R149). -/
@[simp] theorem writeRegAndFlag_flag (x : RegIdx) (v f : Byte) (s : State) :
    (writeRegAndFlag x v f s).reg flagReg = f := by
  simp [writeRegAndFlag]

/-- The result stands in V[x] unless x is VF (R149). -/
theorem writeRegAndFlag_dest {x : RegIdx} (h : x ≠ flagReg) (v f : Byte) (s : State) :
    (writeRegAndFlag x v f s).reg x = v := by
  simp [writeRegAndFlag, reg_writeReg, h]

theorem writeRegAndFlag_reg_ne {x i : RegIdx} (hx : i ≠ x) (hf : i ≠ flagReg) (v f : Byte) (s : State) :
    (writeRegAndFlag x v f s).reg i = s.reg i := by
  simp [writeRegAndFlag, reg_writeReg, hx, hf]

theorem writeRegAndFlag_written (x i : RegIdx) (v f : Byte) (s : State) :
    (writeRegAndFlag x v f s).written i = (decide (i = flagReg) || decide (i = x) || s.written i) := by
  by_cases hf : i = flagReg <;> by_cases hx : i = x <;> simp [writeRegAndFlag, written_writeReg, hf, hx]

end Sys2Proof.Machine
end

