-- ==== Sys2Proof/Laws/Ops.lean ====
section
/-! SUPPORT. One lemma per shared operation that says everything it can do: register reads, the call stack, the fetch, the host
port. Later proofs cite these and do not unfold the operations. -/

namespace Sys2Proof.Machine

/-! ## Outcomes -/

@[simp] theorem next_inj {s t : State} : (Host.Outcome.next s : Out) = .next t ↔ s = t :=
  ⟨fun h => Host.Outcome.next.inj h, fun h => h ▸ rfl⟩

theorem andThen_eq_next {o : Out} {k : State → Out} {t : State} :
    andThen o k = .next t ↔ ∃ u, o = .next u ∧ k u = .next t := by
  cases o <;> simp [andThen]

/-! ## Register reads (R24, R185, R188) -/

theorem withReg_written {i : Instr} {r : RegIdx} {s : State} {k : Byte → Out} (h : s.written r = true) :
    withReg i r s k = k (s.reg r) := by
  simp [withReg, h]

theorem withReg_unwritten {i : Instr} {r : RegIdx} {s : State} {k : Byte → Out} (h : s.written r = false) :
    withReg i r s k = .next (raiseFault (execRecord .unwrittenRegisterRead i (some r) s) s) := by
  simp [withReg, h]

theorem withReg_cases {i : Instr} {r : RegIdx} {s t : State} {k : Byte → Out} (h : withReg i r s k = .next t) :
    (s.written r = true ∧ k (s.reg r) = .next t) ∨
      (s.written r = false ∧ t = raiseFault (execRecord .unwrittenRegisterRead i (some r) s) s) := by
  cases hw : s.written r
  · rw [withReg_unwritten hw] at h
    exact .inr ⟨rfl, (next_inj.mp h).symm⟩
  · rw [withReg_written hw] at h
    exact .inl ⟨rfl, h⟩

theorem withRegs_written {i : Instr} {x y : RegIdx} {s : State} {k : Byte → Byte → Out} (hx : s.written x = true)
    (hy : s.written y = true) : withRegs i x y s k = k (s.reg x) (s.reg y) := by
  simp [withRegs, withReg_written, hx, hy]

/-- The first unwritten operand, V[x] before V[y], is the one reported (R185). -/
theorem withRegs_cases {i : Instr} {x y : RegIdx} {s t : State} {k : Byte → Byte → Out}
    (h : withRegs i x y s k = .next t) :
    (s.written x = true ∧ s.written y = true ∧ k (s.reg x) (s.reg y) = .next t) ∨
      (s.written x = false ∧ t = raiseFault (execRecord .unwrittenRegisterRead i (some x) s) s) ∨
      (s.written x = true ∧ s.written y = false ∧
        t = raiseFault (execRecord .unwrittenRegisterRead i (some y) s) s) := by
  rcases withReg_cases h with ⟨hx, h⟩ | ⟨hx, h⟩
  · rcases withReg_cases h with ⟨hy, h⟩ | ⟨hy, h⟩
    · exact .inl ⟨hx, hy, h⟩
    · exact .inr (.inr ⟨hx, hy, h⟩)
  · exact .inr (.inl ⟨hx, h⟩)

/-! ## The call stack (R29, R120, R122) -/

/-- Everything a push does. -/
structure Pushed (s t : State) : Prop where
  room : s.sp.val < 16
  sp : t.sp.val = s.sp.val + 1
  top : ∀ j : Fin 16, j.val = s.sp.val → t.stack[j] = s.pc
  rest : ∀ j : Fin 16, j.val ≠ s.sp.val → t.stack[j] = s.stack[j]
  V : t.V = s.V
  Vdef : t.Vdef = s.Vdef
  pc : t.pc = s.pc
  mem : t.mem = s.mem
  status : t.status = s.status
  keys : t.keys = s.keys

theorem pushPc_some {s t : State} (h : s.pushPc = some t) : Pushed s t := by
  unfold State.pushPc at h
  split at h
  · next hs =>
    cases h
    refine ⟨hs, rfl, fun j hj => ?_, fun j hj => ?_, rfl, rfl, rfl, rfl, rfl, rfl⟩
    · simp [hj]
    · simp [Vector.getElem_set_ne _ _ (Ne.symm hj)]
  · cases h

theorem pushPc_none {s : State} : s.pushPc = none ↔ s.sp.val = 16 := by
  have := s.sp.isLt
  unfold State.pushPc
  split <;> simp <;> omega

/-- Everything a pop does. -/
structure Popped (s t : State) : Prop where
  occupied : s.sp.val ≠ 0
  sp : t.sp.val + 1 = s.sp.val
  pc : ∀ j : Fin 16, j.val + 1 = s.sp.val → t.pc = s.stack[j]
  stack : t.stack = s.stack
  V : t.V = s.V
  Vdef : t.Vdef = s.Vdef
  mem : t.mem = s.mem
  status : t.status = s.status
  keys : t.keys = s.keys

theorem popPc_some {s t : State} (h : s.popPc = some t) : Popped s t := by
  unfold State.popPc at h
  split at h
  · cases h
  · next hs =>
    cases h
    refine ⟨hs, by simp only; omega, fun j hj => ?_, rfl, rfl, rfl, rfl, rfl, rfl⟩
    have : s.sp.val - 1 = j.val := by omega
    simp [this]

theorem popPc_none {s : State} : s.popPc = none ↔ s.sp.val = 0 := by
  unfold State.popPc
  split <;> simp [*]

/-! ## Faults (R184) -/

@[simp] theorem execFault_eq_next {kind : RunFault} {i : Instr} {s t : State} :
    execFault kind i s = .next t ↔ raiseFault (execRecord kind i none s) s = t := by
  simp [execFault]

/-- Seen from a handler, after the advance, the instruction address is the pc before it (R25, R100). -/
@[simp] theorem instrAddr_advance (s : State) : instrAddr (advance s) = s.pc := by
  simp [instrAddr]

/-! ## Fetch (R52) -/

theorem fetchWord_none {m : Memory} {a : Word} : fetchWord m a = none ↔ 4095 < a.toNat + 1 := by
  unfold fetchWord
  split <;> simp_all

theorem fetchWord_some {m : Memory} {a w : Word} :
    fetchWord m a = some w ↔
      a.toNat + 1 ≤ 4095 ∧ w = wordOfBytes (m.readByte a.toNat) (m.readByte (a.toNat + 1)) := by
  unfold fetchWord
  split
  · simp; omega
  · simp only [Option.some.injEq, eq_comm]
    exact ⟨fun h => ⟨by omega, h⟩, fun h => h.2⟩

theorem instrAt_some {s : State} {i : Instr} :
    instrAt s = some i ↔ ∃ w, fetchWord s.mem s.pc = some w ∧ decode w = .ok i := by
  unfold instrAt
  cases fetchWord s.mem s.pc with
  | none => simp
  | some w => cases h : decode w <;> simp [h]

/-! ## The host port (R201) -/

theorem ifAccepted_eq_next {r : HostRequest} {s t : State} {o : Out} :
    ifAccepted r s o = .next t ↔ hostAccepts r s.status = true ∧ o = .next t := by
  unfold ifAccepted
  split <;> simp [*]

theorem hostRun_eq_next {s t : State} : hostRun s = .next t ↔ s.status = .idle ∧ t = s.setStatus .running := by
  unfold hostRun
  rw [ifAccepted_eq_next]
  cases s.status <;> simp [hostAccepts, eq_comm]

theorem hostLoad_eq_next {bytes : List Byte} {start : Nat} {s t : State} :
    hostLoad bytes start s = .next t ↔
      hostAccepts .load s.status = true ∧ start + bytes.length ≤ 4096 ∧
        t = s.setMem (Memory.writeBytes s.mem start bytes) := by
  unfold hostLoad
  rw [ifAccepted_eq_next]
  split
  · simp; omega
  · next h =>
    simp only [next_inj]
    exact ⟨fun ⟨a, b⟩ => ⟨a, by omega, b.symm⟩, fun ⟨a, _, b⟩ => ⟨a, b.symm⟩⟩

/-! ## Key events (R172) -/

/-- A transition in WaitKey is one key event (R219). -/
theorem waitStep_eq_next {s t : State} :
    waitStep s = .next t ↔ ∃ e rest, s.keys = e :: rest ∧ t = onKey e (s.setKeys rest) := by
  unfold waitStep
  split <;> simp [*, eq_comm]

theorem waitStep_none {s : State} (h : s.keys = []) : waitStep s = .refused .waitingForKey := by
  simp [waitStep, h]

theorem awaitsKey_iff {s : State} : awaitsKey s = true ↔ s.status = .waitKey ∧ s.keys = [] := by
  cases hs : s.status <;> cases hk : s.keys <;> simp [awaitsKey, hs, hk]

@[simp] theorem onKey_keys (e : KeyEvent) (s : State) : (onKey e s).keys = s.keys := by
  cases e <;> rfl

end Sys2Proof.Machine
end

