-- ==== Sys2Proof/Laws/Exec.lean ====
section
/-! SUPPORT. What executing one instruction can do, said once (`exec_cases`): its own effect, or a run fault with its cause.
Proofs about all instructions start here. -/

namespace Sys2Proof.Machine

/-- Every register the instruction reads is written. -/
def OperandsWritten (i : Instr) (s : State) : Prop := ∀ r, r ∈ Reads i → s.written r = true

/-- The instruction's own effect, from `s` (whose pc holds a + 2) to `t`. -/
def Effect (s t : State) : Instr → Prop
  | .halt => t = s.setStatus .halted
  | .ret => s.popPc = some t
  | .jmp nnn => t = s.setPc (zext16 nnn)
  | .call nnn => ∃ u, s.pushPc = some u ∧ t = u.setPc (zext16 nnn)
  | .se x kk => t = if s.reg x = kk then skipNext s else s
  | .sne x kk => t = if s.reg x = kk then s else skipNext s
  | .ld x kk => t = s.writeReg x kk
  | .or x y => t = s.writeReg x (s.reg x ||| s.reg y)
  | .and x y => t = s.writeReg x (s.reg x &&& s.reg y)
  | .xor x y => t = s.writeReg x (s.reg x ^^^ s.reg y)
  | .add x y => t = writeRegAndFlag x (addResult (s.reg x) (s.reg y)) (addFlag (s.reg x) (s.reg y)) s
  | .sub x y => t = writeRegAndFlag x (subResult (s.reg x) (s.reg y)) (subFlag (s.reg x) (s.reg y)) s
  | .mul x y => t = writeRegAndFlag x (mulResult (s.reg x) (s.reg y)) (mulFlag (s.reg x) (s.reg y)) s
  | .div x y => s.reg y ≠ 0 ∧ t = writeRegAndFlag x (divResult (s.reg x) (s.reg y)) (divRemainder (s.reg x) (s.reg y)) s
  | .ldk => t = s.setStatus .waitKey

/-- The causes of a fault during execution (R120, R122, R147, R185, R188). -/
inductive FaultCause (i : Instr) (s : State) : RunFault → Option RegIdx → Prop where
  | unwritten {r : RegIdx} (read : r ∈ Reads i) (clear : s.written r = false) :
      FaultCause i s .unwrittenRegisterRead (some r)
  | overflow {nnn : Addr12} (isCall : i = .call nnn) (full : s.sp.val = 16) : FaultCause i s .stackOverflow none
  | underflow (isRet : i = .ret) (empty : s.sp.val = 0) : FaultCause i s .stackUnderflow none
  | divide {x y : RegIdx} (isDiv : i = .div x y) (written : OperandsWritten i s) (zero : s.reg y = 0) :
      FaultCause i s .divideByZero none

/-- The three outcomes of the two operand reads of an XY instruction, as effect or fault. -/
theorem withRegs_effect_or_fault {i : Instr} {x y : RegIdx} {s t : State} {k : Byte → Byte → Out}
    (hr : Reads i = [x, y]) (h : withRegs i x y s k = .next t) :
    (OperandsWritten i s ∧ k (s.reg x) (s.reg y) = .next t) ∨
      ∃ kind reg, FaultCause i s kind reg ∧ t = raiseFault (execRecord kind i reg s) s := by
  rcases withRegs_cases h with ⟨hx, hy, h⟩ | ⟨hx, h⟩ | ⟨_, hy, h⟩
  · exact .inl ⟨by simp [OperandsWritten, hr, hx, hy], h⟩
  · exact .inr ⟨_, _, .unwritten (by simp [hr]) hx, h⟩
  · exact .inr ⟨_, _, .unwritten (by simp [hr]) hy, h⟩

theorem withReg_effect_or_fault {i : Instr} {x : RegIdx} {s t : State} {k : Byte → Out}
    (hr : Reads i = [x]) (h : withReg i x s k = .next t) :
    (OperandsWritten i s ∧ k (s.reg x) = .next t) ∨
      ∃ kind reg, FaultCause i s kind reg ∧ t = raiseFault (execRecord kind i reg s) s := by
  rcases withReg_cases h with ⟨hx, h⟩ | ⟨hx, h⟩
  · exact .inl ⟨by simp [OperandsWritten, hr, hx], h⟩
  · exact .inr ⟨_, _, .unwritten (by simp [hr]) hx, h⟩

/-- Everything that executing an instruction can do. -/
theorem exec_cases {i : Instr} {s t : State} (h : exec i s = .next t) :
    (OperandsWritten i s ∧ Effect s t i) ∨
      ∃ kind reg, FaultCause i s kind reg ∧ t = raiseFault (execRecord kind i reg s) s := by
  cases i with
  | halt => exact .inl ⟨by simp [OperandsWritten, Reads], (next_inj.mp h).symm⟩
  | ret =>
    simp only [exec, execRet] at h
    cases hp : s.popPc with
    | none =>
      rw [hp] at h
      exact .inr ⟨_, _, .underflow rfl (popPc_none.mp hp), (execFault_eq_next.mp h).symm⟩
    | some u =>
      rw [hp] at h
      exact .inl ⟨by simp [OperandsWritten, Reads], by rw [Effect, hp, next_inj.mp h]⟩
  | jmp nnn => exact .inl ⟨by simp [OperandsWritten, Reads], (next_inj.mp h).symm⟩
  | call nnn =>
    simp only [exec, execCall] at h
    cases hp : s.pushPc with
    | none =>
      rw [hp] at h
      exact .inr ⟨_, _, .overflow rfl (pushPc_none.mp hp), (execFault_eq_next.mp h).symm⟩
    | some u =>
      rw [hp] at h
      exact .inl ⟨by simp [OperandsWritten, Reads], u, hp, (next_inj.mp h).symm⟩
  | se x kk =>
    simp only [exec, execSe] at h
    rcases withReg_effect_or_fault (by rfl) h with ⟨hw, h⟩ | h
    · exact .inl ⟨hw, (next_inj.mp h).symm⟩
    · exact .inr h
  | sne x kk =>
    simp only [exec, execSne] at h
    rcases withReg_effect_or_fault (by rfl) h with ⟨hw, h⟩ | h
    · exact .inl ⟨hw, (next_inj.mp h).symm⟩
    · exact .inr h
  | ld x kk => exact .inl ⟨by simp [OperandsWritten, Reads], (next_inj.mp h).symm⟩
  | div x y =>
    simp only [exec, execDiv] at h
    rcases withRegs_effect_or_fault (by rfl) h with ⟨hw, h⟩ | h
    · by_cases hz : s.reg y = 0
      · rw [if_pos hz] at h
        exact .inr ⟨_, _, .divide rfl hw hz, (execFault_eq_next.mp h).symm⟩
      · rw [if_neg hz] at h
        exact .inl ⟨hw, hz, (next_inj.mp h).symm⟩
    · exact .inr h
  | ldk => exact .inl ⟨by simp [OperandsWritten, Reads], (next_inj.mp h).symm⟩
  | or x y | and x y | xor x y | add x y | sub x y | mul x y =>
    simp only [exec, execOr, execAnd, execXor, execAdd, execSub, execMul] at h
    rcases withRegs_effect_or_fault (by rfl) h with ⟨hw, h⟩ | h
    · exact .inl ⟨hw, (next_inj.mp h).symm⟩
    · exact .inr h

end Sys2Proof.Machine
end

