-- ==== Sys2Proof/Laws/PerInstr.lean ====
section
/-! SUPPORT. Facts of every instruction as syntax, one lemma per constructor. Family `EncodedAsRow`: the word the encoder writes
carries its row's literal bits (spec/30_encoding.md R74). -/

namespace Sys2Proof.Laws.EncodedAsRow

/-- The encoding of `i` selects the opcode-table row of its mnemonic (R74). -/
def Statement (i : Instr) : Prop := (opcodeRow i.mnemonic).selects (encode i) = true

/-- The bitwise AND of two words, field by field. -/
theorem wordOfFields_and (c x y d c' x' y' d' : BitVec 4) :
    wordOfFields c x y d &&& wordOfFields c' x' y' d' =
      wordOfFields (c &&& c') (x &&& x') (y &&& y') (d &&& d') := by
  unfold wordOfFields
  exact (BitVec.and_append).trans (congrArg (· ++ _)
    ((BitVec.and_append).trans (congrArg (· ++ _) BitVec.and_append)))

/-- A mask that looks at the major opcode keeps the major opcode. -/
theorem selects_major {w : Word} (c : BitVec 4) (h : fieldC w = c) : w &&& 0xF000#16 = wordOfFields c 0 0 0 := by
  have hm : 0xF000#16 = wordOfFields 0xF#4 0 0 0 := by decide
  rw [← wordOfFields_fields w, hm, wordOfFields_and, h]
  congr 1 <;> first | exact BitVec.and_allOnes | exact BitVec.and_zero

/-- A mask that looks at the major and the minor opcode keeps these two. -/
theorem selects_minor {w : Word} (c d : BitVec 4) (hc : fieldC w = c) (hd : fieldD w = d) :
    w &&& 0xF00F#16 = wordOfFields c 0 0 d := by
  have hm : 0xF00F#16 = wordOfFields 0xF#4 0 0 0xF#4 := by decide
  rw [← wordOfFields_fields w, hm, wordOfFields_and, hc, hd]
  congr 1 <;> first | exact BitVec.and_allOnes | exact BitVec.and_zero

theorem halt : Statement .halt := rfl
theorem ret : Statement .ret := rfl
theorem ldk : Statement .ldk := rfl

theorem jmp (nnn : Addr12) : Statement (.jmp nnn) := by
  simp [Statement, OpcodeRow.selects, Instr.mnemonic, opcodeRow, encode, selects_major 0x1#4]; decide

theorem call (nnn : Addr12) : Statement (.call nnn) := by
  simp [Statement, OpcodeRow.selects, Instr.mnemonic, opcodeRow, encode, selects_major 0x2#4]; decide

theorem se (x : RegIdx) (kk : Byte) : Statement (.se x kk) := by
  simp [Statement, OpcodeRow.selects, Instr.mnemonic, opcodeRow, encode, selects_major 0x3#4]; decide

theorem sne (x : RegIdx) (kk : Byte) : Statement (.sne x kk) := by
  simp [Statement, OpcodeRow.selects, Instr.mnemonic, opcodeRow, encode, selects_major 0x4#4]; decide

theorem ld (x : RegIdx) (kk : Byte) : Statement (.ld x kk) := by
  simp [Statement, OpcodeRow.selects, Instr.mnemonic, opcodeRow, encode, selects_major 0x6#4]; decide

theorem or (x y : RegIdx) : Statement (.or x y) := by
  simp [Statement, OpcodeRow.selects, Instr.mnemonic, opcodeRow, encode, selects_minor 0x8#4 0x1#4]; decide

theorem and (x y : RegIdx) : Statement (.and x y) := by
  simp [Statement, OpcodeRow.selects, Instr.mnemonic, opcodeRow, encode, selects_minor 0x8#4 0x2#4]; decide

theorem xor (x y : RegIdx) : Statement (.xor x y) := by
  simp [Statement, OpcodeRow.selects, Instr.mnemonic, opcodeRow, encode, selects_minor 0x8#4 0x3#4]; decide

theorem add (x y : RegIdx) : Statement (.add x y) := by
  simp [Statement, OpcodeRow.selects, Instr.mnemonic, opcodeRow, encode, selects_minor 0x8#4 0x4#4]; decide

theorem sub (x y : RegIdx) : Statement (.sub x y) := by
  simp [Statement, OpcodeRow.selects, Instr.mnemonic, opcodeRow, encode, selects_minor 0x8#4 0x5#4]; decide

theorem mul (x y : RegIdx) : Statement (.mul x y) := by
  simp [Statement, OpcodeRow.selects, Instr.mnemonic, opcodeRow, encode, selects_minor 0x8#4 0xC#4]; decide

theorem div (x y : RegIdx) : Statement (.div x y) := by
  simp [Statement, OpcodeRow.selects, Instr.mnemonic, opcodeRow, encode, selects_minor 0x8#4 0xD#4]; decide

end Sys2Proof.Laws.EncodedAsRow
end

