-- ==== Sys2Proof/Laws/Step.lean ====
section
/-! SUPPORT. What one step can do, said once (`step_cases`), and one turn of the loop of run(). Proofs about every step start
here. -/

namespace Sys2Proof.Machine

/-- Everything one cycle can do (R100, R185). -/
theorem cycle_cases {s t : State} (h : cycle s = .next t) :
    (fetchWord s.mem s.pc = none ∧ t = raiseFault (fetchBoundsRecord s.pc) s) ∨
    (∃ w e, fetchWord s.mem s.pc = some w ∧ decode w = .error e ∧
      t = raiseFault (unknownOpcodeRecord w s.pc) (advance s)) ∨
    (∃ w i, fetchWord s.mem s.pc = some w ∧ decode w = .ok i ∧ exec i (advance s) = .next t) := by
  unfold cycle at h
  split at h
  · next hf => exact .inl ⟨hf, (next_inj.mp h).symm⟩
  · next w hf =>
    split at h
    · next e hd => exact .inr (.inl ⟨w, e, hf, hd, (next_inj.mp h).symm⟩)
    · next i hd => exact .inr (.inr ⟨w, i, hf, hd, h⟩)

/-- Everything one step can do, by status. -/
theorem step_cases {s t : State} (h : step s = .next t) :
    (s.status = .idle ∧ cycle (s.setStatus .running) = .next t) ∨
    (s.status = .running ∧ cycle s = .next t) ∨
    (s.status = .waitKey ∧ waitStep s = .next t) := by
  unfold step stepByStatus at h
  split at h
  · next hs =>
    obtain ⟨u, hu, h⟩ := andThen_eq_next.mp h
    obtain ⟨_, rfl⟩ := hostRun_eq_next.mp hu
    exact .inl ⟨hs, h⟩
  · next hs => exact .inr (.inl ⟨hs, h⟩)
  · next hs => exact .inr (.inr ⟨hs, h⟩)
  · cases h
  · cases h

theorem step_running {s : State} (h : s.status = .running) : step s = cycle s := by
  simp [step, stepByStatus, h]

theorem step_waitKey {s : State} (h : s.status = .waitKey) : step s = waitStep s := by
  simp [step, stepByStatus, h]

/-! ## The loop of run() (R101) -/

theorem inProgress_iff {s : State} : inProgress s = true ↔ s.status = .running ∨ s.status = .waitKey := by
  cases h : s.status <;> simp [inProgress, h]

/-- In Running, and in WaitKey with a key event to come, the loop takes a step and goes on. -/
theorem runLoop_succ {s : State} (n : Nat) (h : inProgress s = true) (hk : awaitsKey s = false) :
    runLoop (n + 1) s = andThen (step s) (runLoop n) := by
  simp [runLoop, step, h, hk]

/-- In any other status the loop has ended. -/
theorem runLoop_ended {s : State} (n : Nat) (h : inProgress s = false) : runLoop n s = .next s := by
  cases n <;> simp [runLoop, h]

/-- In a wait with no key event to come the loop takes no step. -/
theorem runLoop_awaitsKey {s : State} (n : Nat) (h : awaitsKey s = true) : runLoop n s = .next s := by
  cases n <;> simp [runLoop, h]

end Sys2Proof.Machine
end

