-- ==== Sys2Proof/Tests/Slice0.lean ====
section
/-! SUPPORT. Tests. Every expected result is the spec's: spec/95_test_vectors.md (derived there from the rules by a script of the
spec's authors), the examples of the rules, or a word written out bit by bit from the layouts of spec/30_encoding.md R72.
Then, for every obligation with hypotheses, a concrete witness that meets them. -/

namespace Sys2Proof.Tests

open Sys2Proof Sys2Proof.Machine

/-! ## Well-formedness: one ill-formed line for each check (R82) -/

theorem test_wf_jmp_address : AsmLine.wellFormed ⟨.JMP, [.num 0x1000]⟩ = false := by decide
theorem test_wf_call_address : assemble ⟨.CALL, [.num 0x1000]⟩ = none := by decide
theorem test_wf_se_immediate : AsmLine.wellFormed ⟨.SE, [.reg 3, .num 0x100]⟩ = false := by decide
theorem test_wf_ld_register : AsmLine.wellFormed ⟨.LD, [.reg 16, .num 0]⟩ = false := by decide
theorem test_wf_or_first_register : AsmLine.wellFormed ⟨.OR, [.reg 16, .reg 0]⟩ = false := by decide
theorem test_wf_or_second_register : AsmLine.wellFormed ⟨.OR, [.reg 0, .reg 16]⟩ = false := by decide
theorem test_wf_operand_kind : AsmLine.wellFormed ⟨.ADD, [.reg 0, .num 1]⟩ = false := by decide
theorem test_wf_operand_count : AsmLine.wellFormed ⟨.HALT, [.reg 0]⟩ = false := by decide
theorem test_wf_accepts_largest : AsmLine.wellFormed ⟨.JMP, [.num 0xFFF]⟩ = true := by decide
theorem test_assemble_se : assemble ⟨.SE, [.reg 3, .num 0x00]⟩ = some (.se 3 0) := by decide
theorem test_render_se : (Instr.se 3 0x0A).asm.chars =
    ['S', 'E', ' ', 'V', '3', ',', ' ', '0', 'x', '0', 'A'] := by decide
theorem test_render_call : (Instr.call 0x00A).asm.chars = ['C', 'A', 'L', 'L', ' ', '0', 'x', '0', '0', 'A'] := by decide

/-! ## Decoding: each constructor's word, bit by bit from R72 -/

theorem test_decode_halt : decode 0b0000000000000000#16 = .ok .halt := by decide
theorem test_decode_ret : decode 0b0000000011101110#16 = .ok .ret := by decide
theorem test_decode_jmp : decode 0b0001101010111100#16 = .ok (.jmp 0b101010111100#12) := by decide
theorem test_decode_call : decode 0b0010111111111110#16 = .ok (.call 0b111111111110#12) := by decide
theorem test_decode_se : decode 0b0011101001011011#16 = .ok (.se 10 0b01011011#8) := by decide
theorem test_decode_sne : decode 0b0100111100000001#16 = .ok (.sne 15 0b00000001#8) := by decide
theorem test_decode_ld : decode 0b0110000111110000#16 = .ok (.ld 1 0b11110000#8) := by decide
theorem test_decode_or : decode 0b1000101010110001#16 = .ok (.or 10 11) := by decide
theorem test_decode_and : decode 0b1000000111100010#16 = .ok (.and 1 14) := by decide
theorem test_decode_xor : decode 0b1000001011110011#16 = .ok (.xor 2 15) := by decide
theorem test_decode_add : decode 0b1000111100010100#16 = .ok (.add 15 1) := by decide
theorem test_decode_sub : decode 0b1000010010000101#16 = .ok (.sub 4 8) := by decide
theorem test_decode_mul : decode 0b1000001101111100#16 = .ok (.mul 3 7) := by decide
theorem test_decode_div : decode 0b1000100000011101#16 = .ok (.div 8 1) := by decide
theorem test_decode_ldk : decode 0b1111000000001010#16 = .ok .ldk := by decide
theorem test_decode_refuses_00e0 : decode 0x00E0 = .error (.unknownOpcode 0x00E0) := by decide
theorem test_decode_refuses_f10a : decode 0xF10A = .error (.unknownOpcode 0xF10A) := by decide
theorem test_decode_refuses_8ab6 : decode 0x8AB6 = .error (.unknownOpcode 0x8AB6) := by decide
theorem test_decode_bytes : decodeBytes [0x80, 0x14, 0xFF] = .ok (.add 0 1, [0xFF]) := by decide
theorem test_decode_truncated : decodeBytes [0x80] = .error .truncated := by decide
theorem test_decode_table_word : decodeTableWord 16 0x8004 = some (.add 0 0) := by decide

/-! ## Encoding: the words of the rules' examples -/

theorem test_encode_call : encode (.call 0x00A) = 0x200A := by decide
theorem test_encode_se : encode (.se 3 0) = 0x3300 := by decide
theorem test_encode_mul : encode (.mul 0 1) = 0x801C := by decide
theorem test_encode_bytes : encodeBytes (.add 0 1) = [0x80, 0x14] := by decide

/-! ## One step of each instruction -/

/-- The next state of an outcome. -/
def nextOf : Out → Option State
  | .next t => some t
  | _ => none

/-- The reset state with V0, V1 and VF given. -/
def regs (v0 v1 vf : Byte) : State := ((State.reset.writeReg 0 v0).writeReg 1 v1).writeReg flagReg vf

/-- The state with a stack pointer and one slot value in every slot. -/
def calls (sp : SpVal) (slot : Word) : State := { State.reset with sp := sp, stack := Vector.replicate 16 slot }

/-- One step that runs the word `w` at the pc `a`. -/
def stepAt (a w : Nat) (s : State) : Option State :=
  nextOf (step ((s.setPc (BitVec.ofNat 16 a)).withFetchWord 16 w))

theorem test_halt : (stepAt 0x00A 0x0000 State.reset).map (fun t => (t.status, t.pc)) = some (.halted, 0x00C) := by decide
theorem test_ret : (stepAt 0x00C 0x00EE (calls 16 0x202)).map (fun t => (t.sp, t.pc, t.status)) =
    some (15, 0x202, .running) := by decide
theorem test_ret_underflow : (stepAt 0x000 0x00EE State.reset).map (fun t => (t.pc, t.status)) =
    some (0x002, .faulted ⟨.stackUnderflow, some 0x00EE, 0x000, none⟩) := by decide
theorem test_jmp_odd : (stepAt 0x000 0x1001 State.reset).map (fun t => (t.pc, t.status)) = some (0x001, .running) := by decide
theorem test_call : (stepAt 0x200 0x2100 (calls 15 0)).map (fun t => (t.sp, t.stack[15], t.pc)) =
    some (16, 0x202, 0x100) := by decide
theorem test_call_overflow : (stepAt 0x200 0x2100 (calls 16 0)).map (fun t => (t.sp, t.pc, t.status)) =
    some (16, 0x202, .faulted ⟨.stackOverflow, some 0x2100, 0x200, none⟩) := by decide
theorem test_se_taken : (stepAt 0xFFE 0x30FF (regs 0xFF 0 0)).map (·.pc) = some 0x1002 := by decide
theorem test_se_not_taken : (stepAt 0x00C 0x3000 (regs 0x01 0 0)).map (·.pc) = some 0x00E := by decide
theorem test_sne_not_taken : (stepAt 0x000 0x4005 (regs 0x05 0 0)).map (·.pc) = some 0x002 := by decide
theorem test_sne_taken : (stepAt 0x000 0x4005 (regs 0x06 0 0)).map (·.pc) = some 0x004 := by decide
theorem test_ld : (stepAt 0 0x610A (regs 1 2 3)).map (fun t => (t.reg 0, t.reg 1, t.reg 15)) = some (1, 0x0A, 3) := by decide
theorem test_or : (stepAt 0 0x8011 (regs 0x05 0x0A 1)).map (fun t => (t.reg 0, t.reg 1, t.reg 15)) =
    some (0x0F, 0x0A, 1) := by decide
theorem test_and : (stepAt 0 0x8012 (regs 0xFF 0x3C 1)).map (fun t => (t.reg 0, t.reg 1, t.reg 15)) =
    some (0x3C, 0x3C, 1) := by decide
theorem test_xor : (stepAt 0 0x8013 (regs 0xFF 0x01 1)).map (fun t => (t.reg 0, t.reg 1, t.reg 15)) =
    some (0xFE, 0x01, 1) := by decide
theorem test_add : (stepAt 0 0x8014 (regs 0xFB 0x0A 0)).map (fun t => (t.reg 0, t.reg 1, t.reg 15)) =
    some (0x05, 0x0A, 1) := by decide
theorem test_add_into_vf : (stepAt 0 0x8F14 (regs 0 0x20 0xF0)).map (fun t => t.reg 15) = some 1 := by decide
theorem test_sub : (stepAt 0 0x8015 (regs 0x05 0x0A 1)).map (fun t => (t.reg 0, t.reg 1, t.reg 15)) =
    some (0xFB, 0x0A, 0) := by decide
theorem test_sub_from_vf : (stepAt 0 0x80F5 (regs 0x10 0 0x03)).map (fun t => (t.reg 0, t.reg 15)) = some (0x0D, 1) := by decide
theorem test_mul : (stepAt 0 0x801C (regs 0x07 0x25 0)).map (fun t => (t.reg 0, t.reg 1, t.reg 15)) =
    some (0x03, 0x25, 1) := by decide
theorem test_mul_fits : (stepAt 0 0x801C (regs 0x0F 0x11 1)).map (fun t => (t.reg 0, t.reg 15)) = some (0xFF, 0) := by decide
theorem test_div_into_vf : (stepAt 0 0x8F1D (regs 0 0x20 0xF0)).map (fun t => t.reg 15) = some 0x10 := by decide
theorem test_div_by_zero : (stepAt 0x004 0x801D (regs 0x05 0x00 7)).map (fun t => (t.reg 0, t.reg 15, t.pc, t.status)) =
    some (0x05, 7, 0x006, .faulted ⟨.divideByZero, some 0x801D, 0x004, none⟩) := by decide
theorem test_ldk : (stepAt 0 0xF00A (regs 7 0 0)).map (fun t => (t.reg 0, t.pc, t.status)) =
    some (7, 0x002, .waitKey) := by decide

/-- The reset state waiting in LDK, with key events to come. -/
def waiting (ks : List KeyEvent) : State := { State.reset with status := .waitKey, keys := ks }

theorem test_key_truncated : (nextOf (step (waiting [.char 0x20AC]))).map (fun t => (t.reg 0, t.status)) =
    some (0xAC, .running) := by decide
theorem test_key_none : step (waiting []) = .refused .waitingForKey := by rfl
theorem test_key_other : (nextOf (step (waiting [.other, .char 0x41]))).map (fun t => (t.reg 0, t.status, t.keys)) =
    some (0, .waitKey, [.char 0x41]) := by decide

/-! ## Fetch, faults of the cycle, the host -/

theorem test_fetch_odd : (nextOf (step { State.reset with status := .running, pc := 1, mem := [(0, 0x10), (1, 0x01)] })).map
    (fun t => (t.pc, t.status)) = some (0x003, .faulted ⟨.unknownOpcode, some 0x0100, 0x001, none⟩) := by decide
theorem test_fetch_bounds : (nextOf (step { State.reset with status := .running, pc := 0xFFF })).map
    (fun t => (t.pc, t.status)) = some (0xFFF, .faulted ⟨.fetchBounds, none, 0xFFF, none⟩) := by decide
theorem test_reset_halts_on_zero_memory : (nextOf (step State.reset)).map (fun t => (t.pc, t.status)) =
    some (0x002, .halted) := by decide

/-- The reset state with V7 unwritten. -/
def v7Unwritten : State := { State.reset with Vdef := (Vector.replicate 16 true).set 7 false }

theorem test_unwritten_read : (stepAt 0 0x3700 v7Unwritten).map (fun t => (t.pc, t.status)) =
    some (0x002, .faulted ⟨.unwrittenRegisterRead, some 0x3700, 0x000, some 7⟩) := by decide
theorem test_load_at_the_top : (nextOf (hostLoad [0x12] 4095 State.reset)).map (·.mem) = some [(4095, 0x12)] := by decide
theorem test_load_bounds : hostLoad [0x12, 0x34] 4095 State.reset = .fault (.boundsFault 4095 2) := by rfl
theorem test_load_empty_at_the_end : (nextOf (hostLoad [] 4096 State.reset)).map (·.mem) = some [] := by decide
theorem test_load_zero_unlists : (Memory.writeBytes [(4, 7)] 4 [0]) = [] := by decide
theorem test_fault_codes : (RunFault.stackOverflow.code, RunFault.unwrittenRegisterRead.code) = (2, 7) := by decide
theorem test_run_refused_after_halt :
    hostRun (State.reset.setStatus .halted) = .refused (.requestRefused .run) := by rfl

/-! ## Witnesses: the hypotheses of the obligations hold together somewhere -/

theorem witness_OperandsAreTheFields : decode 0x8FFD = .ok (.div 15 15) ∧ decode 0x3A5B = .ok (.se 10 0x5B) ∧
    decode 0x1FFF = .ok (.jmp 0xFFF) := by decide
theorem witness_RowsDoNotOverlap : (opcodeRow .DIV).selects 0x8FFD = true := by decide
theorem witness_EncodeOfDecode : decode 0x2FFF = .ok (.call 0xFFF) := by decide
theorem witness_AssemblerAcceptsInstructionsOnly :
    assemble ⟨.SE, [.reg 15, .num 0xFF]⟩ = some (.se 15 0xFF) ∧ 0x1000 > 0xFFF ∧ 0x100 > 0xFF := by decide
theorem witness_FetchIsBigEndian_fits : (0xFFE : Word).toNat + 1 ≤ 4095 := by decide
theorem witness_FetchIsBigEndian_past : 4095 < (0xFFF : Word).toNat + 1 := by decide

/-- ADD V0, V1 at the last address a fetch can read. -/
def addAtTop : State := ((regs 1 2 0).setPc 0xFFE).withFetchWord 16 0x8014

theorem witness_StepRunsTheDecodedInstruction : addAtTop.status = .running ∧ addAtTop.pc.toNat + 1 ≤ 4095 ∧
    decode (wordOfBytes (addAtTop.mem.readByte addAtTop.pc.toNat) (addAtTop.mem.readByte (addAtTop.pc.toNat + 1))) =
      .ok (.add 0 1) := by decide

/-- The illegal word 0xFFFF at 0. -/
def illegalAtZero : State := State.reset.withFetchWord 16 0xFFFF

theorem witness_UnknownWordEndsTheRun : illegalAtZero.status = .running ∧
    fetchWord illegalAtZero.mem illegalAtZero.pc = some 0xFFFF ∧ ∀ m, (opcodeRow m).selects 0xFFFF = false :=
  ⟨by decide, by decide, fun m => by cases m <;> decide⟩

/-- A running state with the pc at `a`. -/
def runningAt (a : Word) : State := (State.reset.setPc a).setStatus .running

theorem witness_FetchPastTheEndEndsTheRun : (runningAt 0xFFF).status = .running ∧ 4095 < (runningAt 0xFFF).pc.toNat + 1 ∧
    4095 < (runningAt 0xFFFF).pc.toNat + 1 := by decide
theorem witness_StepStopsOnlyWhereTheSpecHasNoStep_runs : State.reset.status = .idle ∧ (runningAt 0).status = .running ∧
    (waiting [.other]).status = .waitKey ∧ (waiting [.other]).keys ≠ [] := by decide
theorem witness_StepStopsOnlyWhereTheSpecHasNoStep_waits :
    (waiting []).status = .waitKey ∧ (waiting []).keys = [] := by decide
theorem witness_StepStopsOnlyWhereTheSpecHasNoStep_ended : (State.reset.setStatus .halted).status = .halted ∧
    ((raiseFault (fetchBoundsRecord 0xFFF) State.reset).status = .faulted (fetchBoundsRecord 0xFFF)) := by decide
theorem witness_IdleStepStartsTheRun : State.reset.status = .idle := by decide
theorem witness_CallPushesAndJumps : (calls 0 0).sp.val < 16 ∧ (calls 15 0).sp.val < 16 ∧ (calls 16 0).sp.val = 16 := by decide
theorem witness_RetPopsThePc : (calls 1 6).sp.val ≠ 0 ∧ (calls 16 6).sp.val ≠ 0 ∧ (calls 0 6).sp.val = 0 ∧
    (15 : Fin 16).val + 1 = (calls 16 6).sp.val := by decide
theorem witness_SkipsFollowTheComparison : (regs 5 0 0).written 0 = true ∧ (regs 5 0 0).reg 0 = 5 ∧
    (regs 6 0 0).written 0 = true ∧ (regs 6 0 0).reg 0 ≠ 5 := by decide
theorem witness_LogicResults : (regs 5 10 0).written 0 = true ∧ (regs 5 10 0).written 1 = true := by decide
theorem witness_AddResult : (regs 0xFF 1 0).written 0 = true ∧ (regs 0xFF 1 0).written 1 = true ∧ (0 : RegIdx) ≠ 0xF ∧
    (regs 0xFF 1 0).written 0xF = true ∧ (regs 0xFF 1 0).reg 0 = 0xFF := by decide
theorem witness_SubResult : (regs 0 1 0).written 0 = true ∧ (regs 0 1 0).written 1 = true ∧ (1 : RegIdx) ≠ 0xF := by decide
theorem witness_MulResult : (regs 16 16 0).written 0 = true ∧ (regs 16 16 0).written 1 = true ∧ (0 : RegIdx) ≠ 0xF := by decide
theorem witness_DivResult : (regs 5 1 0).written 0 = true ∧ (regs 5 1 0).written 1 = true ∧ (regs 5 1 0).reg 1 ≠ 0 ∧
    (regs 5 0 0).written 1 = true ∧ (regs 5 0 0).reg 1 = 0 := by decide
theorem witness_LoadAndLogicKeepVf : (0xE : RegIdx) ≠ 0xF ∧ (nextOf (exec (.ld 0xE 9) State.reset)).isSome = true ∧
    (nextOf (exec (.or 0xE 0) State.reset)).isSome = true ∧ (nextOf (exec (.and 0xE 0) State.reset)).isSome = true ∧
    (nextOf (exec (.xor 0xE 0) State.reset)).isSome = true := by decide
theorem witness_UnwrittenReadsFault :
    (Reads (.div 0 7)).find? (fun q => !v7Unwritten.written q) = some 7 ∧
    (Reads (.div 7 0)).find? (fun q => !v7Unwritten.written q) = some 7 := by decide
theorem witness_RegisterWritesAreListed :
    (nextOf (exec (.add 0 1) (regs 1 2 0))).isSome = true ∧ (2 : RegIdx) ∉ Writes (.add 0 1) := by decide

/-- Two running states that differ in V2 only. -/
def differInV2 (v : Byte) : State := ((regs 1 2 0).writeReg 2 v).setStatus .running

theorem witness_RegisterReadsAreListed : AgreeOn (Reads (.add 0 1)) (differInV2 0) (differInV2 9) ∧
    (differInV2 0).status = .running ∧ (nextOf (exec (.add 0 1) (differInV2 0))).isSome = true ∧
    differInV2 0 ≠ differInV2 9 := by
  refine ⟨⟨by decide, rfl, rfl, rfl, rfl, rfl, rfl⟩, rfl, by decide, by decide⟩
theorem witness_StackChangesOnlyByCallAndRet : (∀ nnn, Instr.halt ≠ .call nnn) ∧ Instr.halt ≠ .ret ∧
    (nextOf (exec .halt State.reset)).isSome = true ∧ (nextOf (keyPort .cancel (waiting []))).isSome = true ∧
    (nextOf (hostLoad [1] 0 State.reset)).isSome = true ∧ (nextOf (hostRun State.reset)).isSome = true ∧
    (calls 16 0).sp.val = 16 ∧ (calls 0 0).sp.val = 0 :=
  ⟨by simp, by simp, by decide, by decide, by decide, by decide, by decide, by decide⟩
theorem witness_StepKeepsMemory : (nextOf (step addAtTop)).isSome = true ∧ addAtTop.status ≠ .waitKey ∧
    (nextOf (step (waiting [.other]))).isSome = true ∧ (waiting [.other]).status = .waitKey := by decide
theorem witness_StepKeepsTheInvariant : MachineInv State.reset ∧ (nextOf (step State.reset)).isSome = true :=
  ⟨⟨rfl, fun j hj => absurd hj (Nat.not_lt_zero _), by decide⟩, by decide⟩
theorem witness_ResetMeetsTheInvariant : (4098 : Word).toNat ≤ 4098 := by decide
theorem witness_WrittenRegistersNeverFault : ResetParams.default.regReset.isSome = true ∧ AllWritten addAtTop ∧
    (nextOf (step addAtTop)).isSome = true :=
  ⟨by decide, by unfold AllWritten; decide, by decide⟩
theorem witness_FaultsArePrecise : illegalAtZero.status = .running ∧ ((nextOf (step illegalAtZero)).map (·.status)) =
    some (.faulted (unknownOpcodeRecord 0xFFFF 0)) := by decide

/-- RET at 0 with an empty call stack. -/
def retAtZero : State := State.reset.withFetchWord 16 0x00EE

theorem witness_FaultsHaveTheirCauses : (runningAt 0xFFF).status = .running ∧ retAtZero.status = .running ∧
    retAtZero.sp.val = 0 ∧ instrAt retAtZero = some .ret ∧
    instrAt ((calls 16 0).withFetchWord 16 0x2000) = some (.call 0) ∧
    instrAt ((regs 5 0 0).withFetchWord 16 0x801D) = some (.div 0 1) ∧
    instrAt (v7Unwritten.withFetchWord 16 0x3700) = some (.se 7 0) := by decide
theorem witness_RunEndsOnlyAtHaltOrFault : (runningAt 0).status = .running ∧
    fetchWord (runningAt 0).mem (runningAt 0).pc = some 0x0000 ∧ (nextOf (step (runningAt 0))).isSome = true ∧
    (nextOf (step (waiting [.cancel]))).isSome = true := by decide
theorem witness_PcAfterEachInstruction : addAtTop.status = .running ∧ instrAt addAtTop = some (.add 0 1) ∧
    (nextOf (step addAtTop)).map (·.status) = some .running ∧
    (nextOf (step (waiting [.char 0x41]))).isSome = true := by decide

/-- CALL 0x004 at 0x000 and RET at 0x004, running, with a pc and a stack. -/
def callRet (pc : Word) (sp : SpVal) (top : Word) : State :=
  { runningAt pc with mem := [(0, 0x20), (1, 0x04), (5, 0xEE)], sp := sp, stack := (Vector.replicate 16 0).set 0 top }

theorem witness_CallReturnsToTheNextInstruction : CallStep (callRet 0 0 0) (callRet 4 1 2) ∧
    BalancedRun (callRet 4 1 2) (callRet 4 1 2) ∧ RetStep (callRet 4 1 2) (callRet 2 0 2) :=
  ⟨⟨rfl, rfl, by decide, 0x004, by decide⟩, .refl _, ⟨rfl, rfl, by decide, by decide⟩⟩
theorem witness_OuterFramesAreKept : HoldsFrames 1 (Vector.replicate 16 2) (callRet 4 2 2) ∧
    (nextOf (step (callRet 4 2 2))).isSome = true ∧
    ¬ (0 < 1 ∧ (callRet 4 2 2).sp.val = 1 ∧ (callRet 4 2 2).status ≠ .waitKey ∧ instrAt (callRet 4 2 2) = some .ret) :=
  ⟨by unfold HoldsFrames; decide, by decide, by decide⟩
theorem witness_SixteenCallsNest : (calls 0 0).sp.val + (List.replicate 16 (0x100 : Addr12)).length ≤ 16 := by decide
theorem witness_DeadSlotsAreUnobservable : AgreeOnLive (calls 0 0) (calls 0 7) ∧ calls 0 0 ≠ calls 0 7 ∧
    (nextOf (step (calls 0 0))).isSome = true :=
  ⟨⟨rfl, rfl, rfl, rfl, rfl, rfl, rfl, fun _ hj => absurd hj (Nat.not_lt_zero _)⟩, by decide, by decide⟩
theorem witness_LdkReadsOneKey : (1 : RegIdx) ≠ 0 ∧ (waiting []).status = .waitKey := by decide
theorem witness_StepDeliversTheNextKey : (waiting []).status = .waitKey ∧ (waiting []).keys = [] ∧
    (waiting [.other]).status = .waitKey ∧ (waiting [.other]).keys = .other :: [] := by decide
theorem witness_OtherKeysNeverEndTheWait : (waiting [.other, .other]).keys.length ≤ 2 ∧ (waiting [.other, .other]).status = .waitKey ∧
    ∀ e ∈ (waiting [.other, .other]).keys, e = .other := by decide
theorem witness_LoadWritesExactlyItsBytes : State.reset.status ≠ .running ∧ State.reset.status ≠ .waitKey ∧
    State.reset.mem.wf = true ∧ 4095 + [(1 : Byte)].length ≤ 4096 ∧ 4096 < 4096 + [(1 : Byte)].length := by decide
theorem witness_ResetState : ResetParams.default.regReset = some (Vector.replicate 16 0) ∧
    ({ ResetParams.default with regReset := none } : ResetParams).regReset = none ∧
    State.reset.status ≠ .running ∧ (State.reset.setStatus .halted).status ≠ .waitKey := by decide
theorem witness_BootStartsTheProgram : (State.reset.setStatus .halted).status ≠ .running ∧
    (State.reset.setStatus .halted).status ≠ .waitKey ∧ (0xFFE : Word).toNat + [(0x60 : Byte), 0x05].length ≤ 4096 := by decide
theorem witness_EndedRunsStayEnded : State.reset.status = .idle ∧ (runningAt 0).status ≠ .idle ∧
    (runningAt 0).status = .running ∧ (waiting []).status = .waitKey ∧
    (nextOf (runLoop 1 (runningAt 0))).map runResult = some (some .halted) ∧
    (nextOf (runLoop 1 (runningAt 0xFFF))).map runResult = some (some (.faulted (fetchBoundsRecord 0xFFF))) ∧
    (nextOf (runLoop 3 (waiting []))).map (fun t => (t.status, t.keys)) = some (.waitKey, []) ∧
    (nextOf (runLoop 1 (waiting [.other, .other]))).map (fun t => (t.status, t.keys)) = some (.waitKey, [.other]) := by decide
theorem witness_PlacedWordRunsNext : (runningAt 0xFFFF).mem.wf = true ∧ decode 0x610A = .ok (.ld 1 0x0A) := by decide

end Sys2Proof.Tests
end

section
/-! SUPPORT. The call stack and its pointer: what leaves them unchanged, and what a fault during execution leaves unchanged
(spec/10_state.md R30, spec/60_exceptions.md R184). -/

namespace Sys2Proof.Machine

/-! ## Faults change no register, slot, sp or byte (R184) -/

theorem raiseFault_frame (r : FaultRecord) (s : State) : Frame [] s (raiseFault r s) :=
  ⟨fun _ _ => ⟨rfl, rfl⟩, ⟨rfl, rfl⟩, fun _ => rfl, rfl⟩

theorem raiseFault_keepsStack (r : FaultRecord) (s : State) : KeepsStack s (raiseFault r s) := ⟨rfl, rfl⟩

/-! ## What leaves the call stack unchanged (R30) -/

theorem effect_keepsStack {i : Instr} {s t : State} (hcall : ∀ nnn, i ≠ .call nnn) (hret : i ≠ .ret)
    (h : Effect s t i) : KeepsStack s t := by
  cases i with
  | ret => exact absurd rfl hret
  | call nnn => exact absurd rfl (hcall nnn)
  | se x kk | sne x kk =>
    simp only [Effect] at h
    split at h <;> subst h <;> exact ⟨rfl, rfl⟩
  | div x y =>
    obtain ⟨_, rfl⟩ := h
    exact ⟨rfl, rfl⟩
  | halt | jmp nnn | ld x kk | or x y | and x y | xor x y | add x y | sub x y | mul x y | ldk =>
    simp only [Effect] at h
    subst h
    exact ⟨rfl, rfl⟩

theorem exec_keepsStack {i : Instr} {s t : State} (hcall : ∀ nnn, i ≠ .call nnn) (hret : i ≠ .ret)
    (h : exec i s = .next t) : KeepsStack s t := by
  rcases exec_cases h with ⟨_, heffect⟩ | ⟨_, _, _, rfl⟩
  · exact effect_keepsStack hcall hret heffect
  · exact raiseFault_keepsStack _ s

theorem onKey_keepsStack (e : KeyEvent) (s : State) : KeepsStack s (onKey e s) := by
  cases e <;> exact ⟨rfl, rfl⟩

theorem keyPort_eq_next {e : KeyEvent} {s t : State} :
    keyPort e s = .next t ↔ hostAccepts .keyEvent s.status = true ∧ t = onKey e s := by
  unfold keyPort
  rw [ifAccepted_eq_next, next_inj, eq_comm (a := t)]

/-! ## CALL and RET at the ends of the call stack (R120, R122) -/

theorem exec_call_full (nnn : Addr12) {s : State} (h : s.sp.val = 16) :
    exec (.call nnn) s = .next (raiseFault (execRecord .stackOverflow (.call nnn) none s) s) := by
  simp only [exec, execCall, pushPc_none.mpr h, execFault]

theorem exec_ret_empty {s : State} (h : s.sp.val = 0) :
    exec .ret s = .next (raiseFault (execRecord .stackUnderflow .ret none s) s) := by
  simp only [exec, execRet, popPc_none.mpr h, execFault]

/-- Settles O32: `exec_cases` reduces an instruction to its own effect or a fault, the host operations and the key port have
their one next state, and the two refused stack operations are raised faults. -/
theorem stackChangesOnlyByCallAndRet : Obligations.StackChangesOnlyByCallAndRet := by
  unfold Obligations.StackChangesOnlyByCallAndRet
  refine ⟨fun s => Nat.le_of_lt_succ s.sp.isLt, fun i s t => exec_keepsStack, fun e s t h => ?key,
    fun bytes start s t h => ?load, fun s t h => ?run, fun nnn s hfull => ?call, fun s hempty => ?ret⟩
  case key =>
    obtain ⟨_, rfl⟩ := keyPort_eq_next.mp h
    exact onKey_keepsStack e s
  case load =>
    obtain ⟨_, _, rfl⟩ := hostLoad_eq_next.mp h
    exact ⟨setMem_stack s _, setMem_sp s _⟩
  case run =>
    obtain ⟨_, rfl⟩ := hostRun_eq_next.mp h
    exact ⟨setStatus_stack s _, setStatus_sp s _⟩
  case call => exact ⟨_, _, exec_call_full nnn hfull, raiseFault_status _ s, rfl, raiseFault_frame _ s⟩
  case ret => exact ⟨_, _, exec_ret_empty hempty, raiseFault_status _ s, rfl, raiseFault_frame _ s⟩

end Sys2Proof.Machine
end

section
/-! SUPPORT. The decode map (spec/30_encoding.md R71, R74, R77): the instruction `decode` gives where the fields are a row's
literals, the encoding of what it gives, and the fields a row's mask keeps. -/

namespace Sys2Proof

/-! ## What the decoder answers, row by row (R77) -/

section
variable {w : Word}

theorem decode_jmp (hc : fieldC w = 0x1#4) : decode w = .ok (.jmp (fieldNnn w)) := by simp [decode, hc]

theorem decode_call (hc : fieldC w = 0x2#4) : decode w = .ok (.call (fieldNnn w)) := by simp [decode, hc]

theorem decode_se (hc : fieldC w = 0x3#4) : decode w = .ok (.se (regOfBits (fieldX w)) (fieldKk w)) := by
  simp [decode, hc]

theorem decode_sne (hc : fieldC w = 0x4#4) : decode w = .ok (.sne (regOfBits (fieldX w)) (fieldKk w)) := by
  simp [decode, hc]

theorem decode_ld (hc : fieldC w = 0x6#4) : decode w = .ok (.ld (regOfBits (fieldX w)) (fieldKk w)) := by
  simp [decode, hc]

theorem decode_or (hc : fieldC w = 0x8#4) (hd : fieldD w = 0x1#4) :
    decode w = .ok (.or (regOfBits (fieldX w)) (regOfBits (fieldY w))) := by simp [decode, hc, hd]

theorem decode_and (hc : fieldC w = 0x8#4) (hd : fieldD w = 0x2#4) :
    decode w = .ok (.and (regOfBits (fieldX w)) (regOfBits (fieldY w))) := by simp [decode, hc, hd]

theorem decode_xor (hc : fieldC w = 0x8#4) (hd : fieldD w = 0x3#4) :
    decode w = .ok (.xor (regOfBits (fieldX w)) (regOfBits (fieldY w))) := by simp [decode, hc, hd]

theorem decode_add (hc : fieldC w = 0x8#4) (hd : fieldD w = 0x4#4) :
    decode w = .ok (.add (regOfBits (fieldX w)) (regOfBits (fieldY w))) := by simp [decode, hc, hd]

theorem decode_sub (hc : fieldC w = 0x8#4) (hd : fieldD w = 0x5#4) :
    decode w = .ok (.sub (regOfBits (fieldX w)) (regOfBits (fieldY w))) := by simp [decode, hc, hd]

theorem decode_mul (hc : fieldC w = 0x8#4) (hd : fieldD w = 0xC#4) :
    decode w = .ok (.mul (regOfBits (fieldX w)) (regOfBits (fieldY w))) := by simp [decode, hc, hd]

theorem decode_div (hc : fieldC w = 0x8#4) (hd : fieldD w = 0xD#4) :
    decode w = .ok (.div (regOfBits (fieldX w)) (regOfBits (fieldY w))) := by simp [decode, hc, hd]

end

/-! ## The word of a decoded instruction -/

/-- The branch of `decode` that was taken fixes the literal fields of `w`; the operands are its other fields. -/
theorem encode_of_decode {w : Word} {i : Instr} (h : decode w = .ok i) : encode i = w := by
  unfold decode at h
  split at h <;> cases h
  -- HALT, RET and LDK: every field is literal
  case h_1 hc hx hy hd | h_2 hc hx hy hd | h_15 hc hx hy hd =>
    rw [← wordOfFields_fields w, hc, hx, hy, hd]
    rfl
  -- shape A
  case h_3 hc | h_4 hc => rw [encode, ← hc, wordOfAddr_fields]
  -- shape XK
  case h_5 hc | h_6 hc | h_7 hc => rw [encode, bitsOfReg_regOfBits, ← hc, wordOfImm_fields]
  -- shape XY
  case h_8 hc hd | h_9 hc hd | h_10 hc hd | h_11 hc hd | h_12 hc hd | h_13 hc hd | h_14 hc hd =>
    rw [encode, bitsOfReg_regOfBits, bitsOfReg_regOfBits, ← hc, ← hd, wordOfFields_fields]

/-! ## The row of a word (R74) -/

theorem selects_encode (i : Instr) : (opcodeRow i.mnemonic).selects (encode i) = true := by
  cases i with
  | halt => exact Laws.EncodedAsRow.halt
  | ret => exact Laws.EncodedAsRow.ret
  | jmp nnn => exact Laws.EncodedAsRow.jmp nnn
  | call nnn => exact Laws.EncodedAsRow.call nnn
  | se x kk => exact Laws.EncodedAsRow.se x kk
  | sne x kk => exact Laws.EncodedAsRow.sne x kk
  | ld x kk => exact Laws.EncodedAsRow.ld x kk
  | or x y => exact Laws.EncodedAsRow.or x y
  | and x y => exact Laws.EncodedAsRow.and x y
  | xor x y => exact Laws.EncodedAsRow.xor x y
  | add x y => exact Laws.EncodedAsRow.add x y
  | sub x y => exact Laws.EncodedAsRow.sub x y
  | mul x y => exact Laws.EncodedAsRow.mul x y
  | div x y => exact Laws.EncodedAsRow.div x y
  | ldk => exact Laws.EncodedAsRow.ldk

theorem selects_of_decode {w : Word} {i : Instr} (h : decode w = .ok i) :
    (opcodeRow i.mnemonic).selects w = true := by
  have hsel := selects_encode i
  rwa [encode_of_decode h] at hsel

theorem selects_iff (row : OpcodeRow) (w : Word) : row.selects w = true ↔ w &&& row.mask = row.matchBits := by
  simp [OpcodeRow.selects]

theorem fieldC_of_major {w b : Word} (h : w &&& 0xF000#16 = b) : fieldC w = fieldC b := by
  rw [← h, Laws.EncodedAsRow.selects_major _ rfl, fieldC_wordOfFields]

theorem fieldC_of_minor {w b : Word} (h : w &&& 0xF00F#16 = b) : fieldC w = fieldC b := by
  rw [← h, Laws.EncodedAsRow.selects_minor _ _ rfl rfl, fieldC_wordOfFields]

theorem fieldD_of_minor {w b : Word} (h : w &&& 0xF00F#16 = b) : fieldD w = fieldD b := by
  rw [← h, Laws.EncodedAsRow.selects_minor _ _ rfl rfl, fieldD_wordOfFields]

theorem eq_of_literal {w b : Word} (h : w &&& 0xFFFF#16 = b) : w = b := BitVec.and_allOnes.symm.trans h

theorem decode_of_selects {w : Word} {m : Mnemonic} (h : (opcodeRow m).selects w = true) :
    ∃ i, decode w = .ok i ∧ i.mnemonic = m := by
  rw [selects_iff] at h
  cases m with
  | HALT => exact ⟨.halt, eq_of_literal h ▸ rfl, rfl⟩
  | RET => exact ⟨.ret, eq_of_literal h ▸ rfl, rfl⟩
  | LDK => exact ⟨.ldk, eq_of_literal h ▸ rfl, rfl⟩
  | JMP => exact ⟨_, decode_jmp (fieldC_of_major h), rfl⟩
  | CALL => exact ⟨_, decode_call (fieldC_of_major h), rfl⟩
  | SE => exact ⟨_, decode_se (fieldC_of_major h), rfl⟩
  | SNE => exact ⟨_, decode_sne (fieldC_of_major h), rfl⟩
  | LD => exact ⟨_, decode_ld (fieldC_of_major h), rfl⟩
  | OR => exact ⟨_, decode_or (fieldC_of_minor h) (fieldD_of_minor h), rfl⟩
  | AND => exact ⟨_, decode_and (fieldC_of_minor h) (fieldD_of_minor h), rfl⟩
  | XOR => exact ⟨_, decode_xor (fieldC_of_minor h) (fieldD_of_minor h), rfl⟩
  | ADD => exact ⟨_, decode_add (fieldC_of_minor h) (fieldD_of_minor h), rfl⟩
  | SUB => exact ⟨_, decode_sub (fieldC_of_minor h) (fieldD_of_minor h), rfl⟩
  | MUL => exact ⟨_, decode_mul (fieldC_of_minor h) (fieldD_of_minor h), rfl⟩
  | DIV => exact ⟨_, decode_div (fieldC_of_minor h) (fieldD_of_minor h), rfl⟩

/-- Settles O4: a row's mask keeps the fields that `decode` dispatches on, and the word of a decoded instruction is its
encoding, which selects its row. -/
theorem decodeSelectsTheRow : Obligations.DecodeSelectsTheRow := by
  unfold Obligations.DecodeSelectsTheRow
  refine fun w m => ⟨decode_of_selects, fun hdec => ?_⟩
  obtain ⟨i, hi, rfl⟩ := hdec
  exact selects_of_decode hi

/-- Settles O2: each field's value is a quotient and remainder of the word's, and 16 bits leave `c` no remainder to take. -/
theorem fieldsOfTheWord : Obligations.FieldsOfTheWord := by
  unfold Obligations.FieldsOfTheWord
  refine fun w => ⟨?_, fieldX_toNat w, fieldY_toNat w, fieldD_toNat w, fieldNnn_toNat w, fieldKk_toNat w⟩
  have hc : w.toNat / 4096 < 16 := Nat.div_lt_of_lt_mul w.isLt
  rw [fieldC_toNat, Nat.mod_eq_of_lt hc]

end Sys2Proof
end

section
/-! SUPPORT. The jump (spec/41_control_flow.md R121): the word of a major opcode and an address as a number, and what setting
the pc leaves unchanged. -/

namespace Sys2Proof.Machine

/-- The printed form of a shape-A encoding, its major opcode in the top four bits (R72, R74). -/
theorem ofNat_eq_wordOfAddr (c : BitVec 4) (nnn : Addr12) :
    BitVec.ofNat 16 (4096 * c.toNat + nnn.toNat) = wordOfAddr c nnn := by
  rw [← wordOfAddr_toNat, BitVec.ofNat_toNat, BitVec.setWidth_eq]

theorem decode_wordOfAddr_jmp (nnn : Addr12) : decode (wordOfAddr 0x1#4 nnn) = .ok (.jmp nnn) := by
  rw [decode_jmp (fieldC_wordOfAddr _ _), fieldNnn_wordOfAddr]

/-- An address keeps its value as a pc (R121). -/
@[simp] theorem zext16_toNat (nnn : Addr12) : (zext16 nnn).toNat = nnn.toNat :=
  BitVec.toNat_setWidth_of_le (by decide)

theorem setPc_frame (s : State) (a : Word) : Frame [] s (s.setPc a) :=
  ⟨fun r _ => ⟨setPc_reg s a r, setPc_written s a r⟩, ⟨setPc_stack s a, setPc_sp s a⟩,
    fun _ => congrArg (Memory.readByte · _) (setPc_mem s a), setPc_keys s a⟩

theorem exec_jmp (nnn : Addr12) (s : State) : exec (.jmp nnn) s = .next (s.setPc (zext16 nnn)) := rfl

/-- Settles O18: 0x1nnn is the word of the major opcode 1 and nnn, and JMP only sets the pc. -/
theorem jmpSetsThePc : Obligations.JmpSetsThePc := by
  unfold Obligations.JmpSetsThePc
  refine fun nnn => ⟨?decodes, fun s => ⟨s.setPc (zext16 nnn), exec_jmp nnn s, ?pc, setPc_status s _, setPc_frame s _⟩⟩
  case decodes =>
    have hword : BitVec.ofNat 16 (0x1000 + nnn.toNat) = wordOfAddr 0x1#4 nnn := ofNat_eq_wordOfAddr 0x1#4 nnn
    rw [hword, decode_wordOfAddr_jmp]
  case pc => rw [setPc_pc, zext16_toNat]

end Sys2Proof.Machine
end

section
/-! SUPPORT. The register load and the logic instructions (spec/42_arithmetic_logic.md R140 to R143, R150): their words as
numbers, their one next state, what a register write leaves unchanged, and the registers an instruction can write at all. -/

namespace Sys2Proof.Machine

/-! ## The printed words of the shapes XK and XY (R72, R74) -/

theorem bitsOfReg_toNat (r : RegIdx) : (bitsOfReg r).toNat = r.val := Nat.mod_eq_of_lt r.isLt

theorem ofNat_eq_wordOfImm (c : BitVec 4) (x : RegIdx) (kk : Byte) :
    BitVec.ofNat 16 (4096 * c.toNat + 256 * x.val + kk.toNat) = wordOfImm c (bitsOfReg x) kk := by
  rw [← bitsOfReg_toNat x, ← wordOfImm_toNat, BitVec.ofNat_toNat, BitVec.setWidth_eq]

/-- The two literal fields come first, as in the printed forms `0x8001 + …`. -/
theorem ofNat_eq_wordOfFields (c d : BitVec 4) (x y : RegIdx) :
    BitVec.ofNat 16 (4096 * c.toNat + d.toNat + 256 * x.val + 16 * y.val) =
      wordOfFields c (bitsOfReg x) (bitsOfReg y) d := by
  have hvalue : (wordOfFields c (bitsOfReg x) (bitsOfReg y) d).toNat =
      4096 * c.toNat + d.toNat + 256 * x.val + 16 * y.val := by
    rw [wordOfFields_toNat, bitsOfReg_toNat, bitsOfReg_toNat]
    omega
  rw [← hvalue, BitVec.ofNat_toNat, BitVec.setWidth_eq]

section
variable (x y : RegIdx)

theorem decode_wordOfImm_ld (kk : Byte) : decode (wordOfImm 0x6#4 (bitsOfReg x) kk) = .ok (.ld x kk) := by
  rw [decode_ld (fieldC_wordOfImm _ _ _), fieldX_wordOfImm, fieldKk_wordOfImm, regOfBits_bitsOfReg]

theorem decode_wordOfFields_or :
    decode (wordOfFields 0x8#4 (bitsOfReg x) (bitsOfReg y) 0x1#4) = .ok (.or x y) := by
  simp [decode_or]

theorem decode_wordOfFields_and :
    decode (wordOfFields 0x8#4 (bitsOfReg x) (bitsOfReg y) 0x2#4) = .ok (.and x y) := by
  simp [decode_and]

theorem decode_wordOfFields_xor :
    decode (wordOfFields 0x8#4 (bitsOfReg x) (bitsOfReg y) 0x3#4) = .ok (.xor x y) := by
  simp [decode_xor]

end

/-! ## The one next state (R140 to R143) -/

theorem exec_ld (x : RegIdx) (kk : Byte) (s : State) : exec (.ld x kk) s = .next (s.writeReg x kk) := rfl

section
variable {x y : RegIdx} {s : State} (hx : s.written x = true) (hy : s.written y = true)
include hx hy

theorem exec_or : exec (.or x y) s = .next (s.writeReg x (s.reg x ||| s.reg y)) := by
  simp only [exec, execOr, withRegs_written hx hy]

theorem exec_and : exec (.and x y) s = .next (s.writeReg x (s.reg x &&& s.reg y)) := by
  simp only [exec, execAnd, withRegs_written hx hy]

theorem exec_xor : exec (.xor x y) s = .next (s.writeReg x (s.reg x ^^^ s.reg y)) := by
  simp only [exec, execXor, withRegs_written hx hy]

end

/-! ## What a register write leaves unchanged (R10, R24) -/

theorem writeReg_keepsRegs (s : State) (x : RegIdx) (v : Byte) : KeepsRegs [x] s (s.writeReg x v) := by
  intro r hr
  have hne : r ≠ x := fun heq => hr (List.mem_singleton.mpr heq)
  exact ⟨reg_writeReg_ne hne, written_writeReg_ne hne⟩

theorem writeReg_frame (s : State) (x : RegIdx) (v : Byte) : Frame [x] s (s.writeReg x v) :=
  ⟨writeReg_keepsRegs s x v, ⟨writeReg_stack s x v, writeReg_sp s x v⟩,
    fun _ => congrArg (Memory.readByte · _) (writeReg_mem s x v), writeReg_keys s x v⟩

theorem writeReg_keepsControl (s : State) (x : RegIdx) (v : Byte) : KeepsControl s (s.writeReg x v) :=
  ⟨writeReg_pc s x v, writeReg_status s x v⟩

theorem exec_writeReg_result {i : Instr} {s : State} {x : RegIdx} {v : Byte} {n : Nat}
    (hexec : exec i s = .next (s.writeReg x v)) (hv : v.toNat = n) :
    ∃ t, exec i s = .next t ∧ (t.reg x).toNat = n ∧ Frame [x] s t ∧ t.written x = true ∧ KeepsControl s t :=
  ⟨_, hexec, (congrArg BitVec.toNat (reg_writeReg_same s x v)).trans hv, writeReg_frame s x v,
    written_writeReg_same s x v, writeReg_keepsControl s x v⟩

theorem writeRegAndFlag_keepsRegs (s : State) (x : RegIdx) (v f : Byte) :
    KeepsRegs [x, flagReg] s (writeRegAndFlag x v f s) := by
  intro r hr
  obtain ⟨hx, hf⟩ : r ≠ x ∧ r ≠ flagReg := by simpa using hr
  exact ⟨writeRegAndFlag_reg_ne hx hf v f s, by simp [writeRegAndFlag_written, hx, hf]⟩

/-! ## The registers an instruction can write (R22, R184) -/

theorem keepsRegs_of_eq {s t : State} (rs : List RegIdx) (hV : t.V = s.V) (hVdef : t.Vdef = s.Vdef) :
    KeepsRegs rs s t := fun r _ => ⟨congrArg (·[r]) hV, congrArg (·[r]) hVdef⟩

theorem effect_keepsRegs {i : Instr} {s t : State} (h : Effect s t i) : KeepsRegs (Writes i) s t := by
  cases i with
  | ret =>
    have hpop := popPc_some h
    exact keepsRegs_of_eq _ hpop.V hpop.Vdef
  | call nnn =>
    obtain ⟨u, hu, rfl⟩ := h
    have hpush := pushPc_some hu
    exact keepsRegs_of_eq _ hpush.V hpush.Vdef
  | se x kk | sne x kk =>
    simp only [Effect] at h
    split at h <;> subst h <;> exact keepsRegs_of_eq _ rfl rfl
  | halt | jmp nnn | ldk =>
    simp only [Effect] at h
    subst h
    exact keepsRegs_of_eq _ rfl rfl
  | ld x kk | or x y | and x y | xor x y =>
    simp only [Effect] at h
    subst h
    exact writeReg_keepsRegs s x _
  | add x y | sub x y | mul x y =>
    simp only [Effect] at h
    subst h
    exact writeRegAndFlag_keepsRegs s x _ _
  | div x y =>
    obtain ⟨_, rfl⟩ := h
    exact writeRegAndFlag_keepsRegs s x _ _

/-- A fault writes no register, so this holds whether or not the instruction faults. -/
theorem exec_keepsRegs {i : Instr} {s t : State} (h : exec i s = .next t) : KeepsRegs (Writes i) s t := by
  rcases exec_cases h with ⟨_, heffect⟩ | ⟨_, _, _, rfl⟩
  · exact effect_keepsRegs heffect
  · exact keepsRegs_of_eq _ (raiseFault_V _ s) (raiseFault_Vdef _ s)

/-- Settles O22: 0x6xkk is the word of the major opcode 6, x and kk, and LD is one register write. -/
theorem ldStoresTheImmediate : Obligations.LdStoresTheImmediate := by
  unfold Obligations.LdStoresTheImmediate
  refine fun x kk => ⟨?decodes, fun s => ⟨s.writeReg x kk, exec_ld x kk s, reg_writeReg_same s x kk,
    written_writeReg_same s x kk, writeReg_frame s x kk, writeReg_keepsControl s x kk⟩⟩
  have hword : BitVec.ofNat 16 (0x6000 + 256 * x.val + kk.toNat) = wordOfImm 0x6#4 (bitsOfReg x) kk :=
    ofNat_eq_wordOfImm 0x6#4 x kk
  rw [hword, decode_wordOfImm_ld]

/-- Settles O23: with both operands written, each of the three is one register write of the bitwise result. -/
theorem logicResults : Obligations.LogicResults := by
  unfold Obligations.LogicResults
  refine fun x y => ⟨?or, ?and, ?xor, fun s hx hy => ⟨?orNext, ?andNext, ?xorNext⟩⟩
  case or => exact (congrArg decode (ofNat_eq_wordOfFields 0x8#4 0x1#4 x y)).trans (decode_wordOfFields_or x y)
  case and => exact (congrArg decode (ofNat_eq_wordOfFields 0x8#4 0x2#4 x y)).trans (decode_wordOfFields_and x y)
  case xor => exact (congrArg decode (ofNat_eq_wordOfFields 0x8#4 0x3#4 x y)).trans (decode_wordOfFields_xor x y)
  case orNext => exact exec_writeReg_result (exec_or hx hy) (BitVec.toNat_or _ _)
  case andNext => exact exec_writeReg_result (exec_and hx hy) (BitVec.toNat_and _ _)
  case xorNext => exact exec_writeReg_result (exec_xor hx hy) (BitVec.toNat_xor _ _)

/-- Settles O28: each of the four writes at most its destination, and VF is another register. -/
theorem loadAndLogicKeepVf : Obligations.LoadAndLogicKeepVf := by
  unfold Obligations.LoadAndLogicKeepVf
  intro x y kk s t hx hexec
  have hvf : (0xF : RegIdx) ∉ [x] := fun hmem => hx (List.mem_singleton.mp hmem).symm
  rcases hexec with h | h | h | h <;> exact exec_keepsRegs h _ hvf

end Sys2Proof.Machine
end

section
/-! SUPPORT. Encoder, decoder and assembler as inverses of each other (spec/30_encoding.md R73 to R82), and the words that are no
instruction. -/

namespace Sys2Proof

/-! ## Decode and encode (R74, R77) -/

theorem decode_encode (i : Instr) : decode (encode i) = .ok i := by
  cases i with
  | halt | ret | ldk => rfl
  | jmp nnn => exact Machine.decode_wordOfAddr_jmp nnn
  | call nnn => rw [encode, decode_call (fieldC_wordOfAddr _ _), fieldNnn_wordOfAddr]
  | se x kk | sne x kk | ld x kk => simp [encode, decode_se, decode_sne, decode_ld]
  | or x y | and x y | xor x y => simp [encode, decode_or, decode_and, decode_xor]
  | add x y | sub x y | mul x y | div x y => simp [encode, decode_add, decode_sub, decode_mul, decode_div]

/-- An instruction's printed word decodes to it, in whatever form the word is written. -/
theorem decode_of_eq_encode {w : Word} {i : Instr} (h : w = encode i) : decode w = .ok i := h ▸ decode_encode i

theorem decodeBytes_encodeBytes (i : Instr) (rest : List Byte) :
    decodeBytes (encodeBytes i ++ rest) = .ok (i, rest) := by
  simp [encodeBytes, decodeBytes, decode_encode, Except.map]

/-- The only refusal of a word names the word (R79). -/
theorem decode_error {w : Word} {e : DecodeError} (h : decode w = .error e) : e = .unknownOpcode w := by
  unfold decode at h
  split at h <;> cases h
  rfl

theorem decode_error_iff {w : Word} :
    decode w = .error (.unknownOpcode w) ↔ ∀ m, (opcodeRow m).selects w = false := by
  constructor
  · intro herr m
    refine Bool.eq_false_iff.mpr fun hsel => ?_
    obtain ⟨i, hok, _⟩ := decode_of_selects hsel
    rw [herr] at hok
    cases hok
  · intro hnone
    cases hdec : decode w with
    | error e => rw [decode_error hdec]
    | ok i => exact absurd (selects_of_decode hdec) (Bool.eq_false_iff.mp (hnone i.mnemonic))

/-! ## The assembler (R82) -/

theorem operandsFit_operands (i : Instr) : operandsFit i.mnemonic.shape i.operands = true := by
  cases i with
  | halt | ret | ldk => rfl
  | jmp nnn | call nnn => exact decide_eq_true (Nat.le_of_lt_succ nnn.isLt)
  | se x kk | sne x kk | ld x kk =>
    have hx : x.val ≤ 0xF := Nat.le_of_lt_succ x.isLt
    have hkk : kk.toNat ≤ 0xFF := Nat.le_of_lt_succ kk.isLt
    simp [Instr.mnemonic, Mnemonic.shape, Instr.operands, operandsFit, hx, hkk]
  | or x y | and x y | xor x y | add x y | sub x y | mul x y | div x y =>
    have hx : x.val ≤ 0xF := Nat.le_of_lt_succ x.isLt
    have hy : y.val ≤ 0xF := Nat.le_of_lt_succ y.isLt
    simp [Instr.mnemonic, Mnemonic.shape, Instr.operands, operandsFit, hx, hy]

/-- Every term of `Instr` is well formed: its operands carry their field's width (R73). -/
theorem instr_wellFormed (i : Instr) : i.wellFormed = true := operandsFit_operands i

theorem assembleOperands_operands (i : Instr) : assembleOperands i.mnemonic i.operands = some i := by
  cases i <;> simp [Instr.mnemonic, Instr.operands, assembleOperands]

theorem assemble_asm (i : Instr) : assemble i.asm = some i :=
  (if_pos (instr_wellFormed i)).trans (assembleOperands_operands i)

/-- Operands that fit their fields lose nothing where the assembler narrows them. -/
theorem asm_of_assembleOperands {m : Mnemonic} {os : List AsmOperand} {i : Instr}
    (hfit : operandsFit m.shape os = true) (h : assembleOperands m os = some i) : i.asm = ⟨m, os⟩ := by
  unfold assembleOperands at h
  split at h <;> cases h
  case h_1 | h_2 | h_3 => rfl
  -- shape A
  case h_4 n | h_5 n =>
    have hn : n ≤ 0xFFF := of_decide_eq_true hfit
    simp [Instr.asm, Instr.mnemonic, Instr.operands]
    omega
  -- shape XK
  case h_6 x k | h_7 x k | h_8 x k =>
    obtain ⟨hx, hk⟩ : x ≤ 0xF ∧ k ≤ 0xFF := by simpa [operandsFit, Mnemonic.shape] using hfit
    simp [Instr.asm, Instr.mnemonic, Instr.operands]
    omega
  -- shape XY
  case h_9 x y | h_10 x y | h_11 x y | h_12 x y | h_13 x y | h_14 x y | h_15 x y =>
    obtain ⟨hx, hy⟩ : x ≤ 0xF ∧ y ≤ 0xF := by simpa [operandsFit, Mnemonic.shape] using hfit
    simp [Instr.asm, Instr.mnemonic, Instr.operands]
    omega

theorem asm_of_assemble {l : AsmLine} {i : Instr} (h : assemble l = some i) : i.asm = l := by
  unfold assemble at h
  split at h
  · next hfit => exact asm_of_assembleOperands hfit h
  · cases h

theorem assemble_malformed {l : AsmLine} (h : l.wellFormed = false) : assemble l = none := by
  simp [assemble, h]

theorem operandsFit_wide_address {n : Nat} (h : n > 0xFFF) : operandsFit .a [.num n] = false :=
  decide_eq_false (Nat.not_le_of_gt h)

theorem operandsFit_wide_immediate (x : Nat) {k : Nat} (h : k > 0xFF) :
    operandsFit .xk [.reg x, .num k] = false := by
  simp [operandsFit, Nat.not_le_of_gt h]

/-! ## The obligations about the instruction word -/

/-- Settles O7: every term of `Instr` is well formed, and the decoder reads each field where the encoder put it. -/
theorem decodeOfEncode : Obligations.DecodeOfEncode := by
  unfold Obligations.DecodeOfEncode
  exact fun i => ⟨instr_wellFormed i, decode_encode i, decodeBytes_encodeBytes i⟩

/-- Settles O8: the branch of `decode` that was taken fixes the literal fields. -/
theorem encodeOfDecode : Obligations.EncodeOfDecode := by
  unfold Obligations.EncodeOfDecode
  exact fun w i => encode_of_decode

/-- Settles O3: the word is the encoding of what it decodes to, and the operands are digits of the encoding's value. -/
theorem operandsAreTheFields : Obligations.OperandsAreTheFields := by
  unfold Obligations.OperandsAreTheFields
  intro w i hdec
  obtain rfl := encode_of_decode hdec
  cases i with
  | halt | ret | ldk => trivial
  | jmp nnn | call nnn =>
    simp only [encode, wordOfAddr_toNat]
    omega
  | se x kk | sne x kk | ld x kk =>
    simp only [encode, wordOfImm_toNat, Machine.bitsOfReg_toNat]
    omega
  | or x y | and x y | xor x y | add x y | sub x y | mul x y | div x y =>
    simp only [encode, wordOfFields_toNat, Machine.bitsOfReg_toNat]
    omega

/-- Settles O5: both rows are the row of the one instruction the word decodes to. -/
theorem rowsDoNotOverlap : Obligations.RowsDoNotOverlap := by
  unfold Obligations.RowsDoNotOverlap
  intro w m n hm hn
  obtain ⟨i, hi, rfl⟩ := decode_of_selects hm
  obtain ⟨j, hj, rfl⟩ := decode_of_selects hn
  have hij : i = j := Except.ok.inj (hi.symm.trans hj)
  rw [hij]

/-- Settles O6: a row that selects the word would give it an instruction, and an instruction's row selects its word. -/
theorem illegalWordsAreRefused : Obligations.IllegalWordsAreRefused := by
  unfold Obligations.IllegalWordsAreRefused
  exact fun w => decode_error_iff

/-- Settles O9: printing and assembling are inverse on operands that fit, and an operand that does not fit makes the line
malformed. -/
theorem assemblerAcceptsInstructionsOnly : Obligations.AssemblerAcceptsInstructionsOnly := by
  unfold Obligations.AssemblerAcceptsInstructionsOnly
  refine ⟨assemble_asm, fun l i => asm_of_assemble, fun n hn => ?address, fun x k hk => ?immediate⟩
  case address =>
    have hfit := operandsFit_wide_address hn
    exact ⟨assemble_malformed hfit, assemble_malformed hfit⟩
  case immediate =>
    have hfit := operandsFit_wide_immediate x hk
    exact ⟨assemble_malformed hfit, assemble_malformed hfit, assemble_malformed hfit⟩

/-- Settles O1: each conjunct is the decoder run on one fixed word. -/
theorem knownWordsDecode : Obligations.KnownWordsDecode := by
  unfold Obligations.KnownWordsDecode
  decide

end Sys2Proof
end

section
/-! SUPPORT. Executing one instruction, forwards: its effect where its operands are written and no check fails, the fault it
raises otherwise (spec/60_exceptions.md R185, R188), and what it leaves unchanged. Together with `exec_cases` this says
exactly when an instruction faults. -/

namespace Sys2Proof.Machine

/-! ## Forwards evaluation -/

theorem operandsWritten_pair {i : Instr} {s : State} {x y : RegIdx} (hr : Reads i = [x, y]) :
    OperandsWritten i s ↔ s.written x = true ∧ s.written y = true := by
  simp [OperandsWritten, hr]

/-- With its operands written, an instruction that has an effect takes it. -/
theorem exec_effect {i : Instr} {s t : State} (hw : OperandsWritten i s) (h : Effect s t i) : exec i s = .next t := by
  cases i with
  | halt | jmp nnn | ld x kk | ldk =>
    simp only [Effect] at h
    subst h
    rfl
  | ret => simp only [exec, execRet, show s.popPc = some t from h]
  | call nnn =>
    obtain ⟨u, hu, rfl⟩ := h
    simp only [exec, execCall, hu]
  | se x kk | sne x kk =>
    have hx : s.written x = true := hw x (by simp [Reads])
    simp only [Effect] at h
    simp only [exec, execSe, execSne, withReg_written hx, h]
  | or x y | and x y | xor x y | add x y | sub x y | mul x y =>
    obtain ⟨hx, hy⟩ := (operandsWritten_pair rfl).mp hw
    simp only [Effect] at h
    simp only [exec, execOr, execAnd, execXor, execAdd, execSub, execMul, withRegs_written hx hy, h]
  | div x y =>
    obtain ⟨hx, hy⟩ := (operandsWritten_pair rfl).mp hw
    obtain ⟨hne, rfl⟩ := h
    simp only [exec, execDiv, withRegs_written hx hy, if_neg hne]

theorem exec_div_zero {x y : RegIdx} {s : State} (hw : OperandsWritten (.div x y) s) (hz : s.reg y = 0) :
    exec (.div x y) s = .next (raiseFault (execRecord .divideByZero (.div x y) none s) s) := by
  obtain ⟨hx, hy⟩ := (operandsWritten_pair rfl).mp hw
  simp only [exec, execDiv, withRegs_written hx hy, if_pos hz, execFault]

/-! ## The first unwritten operand (R185, R188) -/

/-- The first register that `i` reads whose written bit is clear. -/
def firstUnwritten (i : Instr) (s : State) : Option RegIdx := (Reads i).find? (fun q => !s.written q)

theorem firstUnwritten_none {i : Instr} {s : State} : firstUnwritten i s = none ↔ OperandsWritten i s := by
  simp [firstUnwritten, OperandsWritten]

theorem firstUnwritten_some {i : Instr} {s : State} {r : RegIdx} (h : firstUnwritten i s = some r) :
    r ∈ Reads i ∧ s.written r = false := by
  refine ⟨List.mem_of_find?_eq_some h, ?_⟩
  simpa using List.find?_some h

theorem withReg_firstUnwritten {i : Instr} {x r : RegIdx} {s : State} {k : Byte → Out} (hr : Reads i = [x])
    (h : firstUnwritten i s = some r) :
    withReg i x s k = .next (raiseFault (execRecord .unwrittenRegisterRead i (some r) s) s) := by
  obtain ⟨hmem, hclear⟩ := firstUnwritten_some h
  obtain rfl : r = x := by simpa [hr] using hmem
  exact withReg_unwritten hclear

theorem withRegs_firstUnwritten {i : Instr} {x y r : RegIdx} {s : State} {k : Byte → Byte → Out}
    (hr : Reads i = [x, y]) (h : firstUnwritten i s = some r) :
    withRegs i x y s k = .next (raiseFault (execRecord .unwrittenRegisterRead i (some r) s) s) := by
  unfold withRegs
  cases hx : s.written x
  · obtain rfl : x = r := by simpa [firstUnwritten, hr, hx] using h
    exact withReg_unwritten hx
  · obtain ⟨hy, rfl⟩ : s.written y = false ∧ y = r := by simpa [firstUnwritten, hr, hx] using h
    rw [withReg_written hx, withReg_unwritten hy]

theorem exec_firstUnwritten {i : Instr} {s : State} {r : RegIdx} (h : firstUnwritten i s = some r) :
    exec i s = .next (raiseFault (execRecord .unwrittenRegisterRead i (some r) s) s) := by
  cases i with
  | halt | ret | jmp nnn | call nnn | ld x kk | ldk => simp [firstUnwritten, Reads] at h
  | se x kk | sne x kk =>
    simp only [exec, execSe, execSne]
    exact withReg_firstUnwritten rfl h
  | or x y | and x y | xor x y | add x y | sub x y | mul x y | div x y =>
    simp only [exec, execOr, execAnd, execXor, execAdd, execSub, execMul, execDiv]
    exact withRegs_firstUnwritten rfl h

/-! ## Every instruction executes -/

/-- With its operands written, an instruction has its effect or one of the three other checks fails. -/
theorem exec_next_of_operandsWritten {i : Instr} {s : State} (hw : OperandsWritten i s) : ∃ t, exec i s = .next t := by
  cases i with
  | ret =>
    cases hpop : s.popPc with
    | none => exact ⟨_, exec_ret_empty (popPc_none.mp hpop)⟩
    | some u => exact ⟨u, exec_effect hw hpop⟩
  | call nnn =>
    cases hpush : s.pushPc with
    | none => exact ⟨_, exec_call_full nnn (pushPc_none.mp hpush)⟩
    | some u => exact ⟨_, exec_effect hw ⟨u, hpush, rfl⟩⟩
  | div x y =>
    by_cases hz : s.reg y = 0
    · exact ⟨_, exec_div_zero hw hz⟩
    · exact ⟨_, exec_effect hw ⟨hz, rfl⟩⟩
  | halt | jmp nnn | se x kk | sne x kk | ld x kk | or x y | and x y | xor x y | add x y | sub x y | mul x y | ldk =>
    exact ⟨_, exec_effect hw rfl⟩

theorem exec_next (i : Instr) (s : State) : ∃ t, exec i s = .next t := by
  cases hf : firstUnwritten i s with
  | some r => exact ⟨_, exec_firstUnwritten hf⟩
  | none => exact exec_next_of_operandsWritten (firstUnwritten_none.mp hf)

/-! ## Faults leave everything but the status (R183, R184) -/

theorem raiseFault_faultedBy (kind : RunFault) (i : Instr) (reg : Option RegIdx) (s : State) :
    FaultedBy kind (encode i) reg s (raiseFault (execRecord kind i reg s) s) :=
  ⟨raiseFault_status _ s, raiseFault_pc _ s, raiseFault_frame _ s⟩

/-! ## What an effect can change -/

/-- An effect on the call stack is a push and a jump, a pop, or none (R30). -/
theorem effect_stack_cases {i : Instr} {s t : State} (h : Effect s t i) :
    (∃ nnn u, i = .call nnn ∧ Pushed s u ∧ t = u.setPc (zext16 nnn)) ∨ (i = .ret ∧ Popped s t) ∨
      ((∀ nnn, i ≠ .call nnn) ∧ i ≠ .ret ∧ KeepsStack s t) := by
  by_cases hret : i = .ret
  · subst hret
    exact .inr (.inl ⟨rfl, popPc_some h⟩)
  by_cases hcall : ∃ nnn, i = .call nnn
  · obtain ⟨nnn, rfl⟩ := hcall
    obtain ⟨u, hu, rfl⟩ := h
    exact .inl ⟨nnn, u, rfl, pushPc_some hu, rfl⟩
  · have hcall : ∀ nnn, i ≠ .call nnn := fun nnn heq => hcall ⟨nnn, heq⟩
    exact .inr (.inr ⟨hcall, hret, effect_keepsStack hcall hret h⟩)

theorem effect_mem_keys {i : Instr} {s t : State} (h : Effect s t i) : t.mem = s.mem ∧ t.keys = s.keys := by
  cases i with
  | ret => exact ⟨(popPc_some h).mem, (popPc_some h).keys⟩
  | call nnn =>
    obtain ⟨u, hu, rfl⟩ := h
    exact ⟨(pushPc_some hu).mem, (pushPc_some hu).keys⟩
  | se x kk | sne x kk =>
    simp only [Effect] at h
    split at h <;> subst h <;> exact ⟨rfl, rfl⟩
  | div x y =>
    obtain ⟨_, rfl⟩ := h
    exact ⟨rfl, rfl⟩
  | halt | jmp nnn | ld x kk | or x y | and x y | xor x y | add x y | sub x y | mul x y | ldk =>
    simp only [Effect] at h
    subst h
    exact ⟨rfl, rfl⟩

/-- Only HALT and LDK change the status (R102, R103, R171). -/
theorem effect_status {i : Instr} {s t : State} (h : Effect s t i) :
    (i = .halt ∧ t.status = .halted) ∨ (i = .ldk ∧ t.status = .waitKey) ∨
      (i ≠ .halt ∧ i ≠ .ldk ∧ t.status = s.status) := by
  cases i with
  | halt => exact .inl ⟨rfl, congrArg State.status h⟩
  | ldk => exact .inr (.inl ⟨rfl, congrArg State.status h⟩)
  | ret => exact .inr (.inr ⟨nofun, nofun, (popPc_some h).status⟩)
  | call nnn =>
    obtain ⟨u, hu, rfl⟩ := h
    exact .inr (.inr ⟨nofun, nofun, (pushPc_some hu).status⟩)
  | se x kk | sne x kk =>
    simp only [Effect] at h
    split at h <;> subst h <;> exact .inr (.inr ⟨nofun, nofun, rfl⟩)
  | div x y =>
    obtain ⟨_, rfl⟩ := h
    exact .inr (.inr ⟨nofun, nofun, rfl⟩)
  | jmp nnn | ld x kk | or x y | and x y | xor x y | add x y | sub x y | mul x y =>
    simp only [Effect] at h
    subst h
    exact .inr (.inr ⟨nofun, nofun, rfl⟩)

theorem written_writeReg_of_written {s : State} {q : RegIdx} (r : RegIdx) (v : Byte) (h : s.written q = true) :
    (s.writeReg r v).written q = true := by
  simp [written_writeReg, h]

/-- No instruction clears a written bit (R24). -/
theorem effect_keeps_written {i : Instr} {s t : State} {q : RegIdx} (h : Effect s t i) (hq : s.written q = true) :
    t.written q = true := by
  cases i with
  | ret => exact (congrArg (·[q]) (popPc_some h).Vdef).trans hq
  | call nnn =>
    obtain ⟨u, hu, rfl⟩ := h
    exact (congrArg (·[q]) (pushPc_some hu).Vdef).trans hq
  | se x kk | sne x kk =>
    simp only [Effect] at h
    split at h <;> subst h <;> exact hq
  | halt | jmp nnn | ldk =>
    simp only [Effect] at h
    subst h
    exact hq
  | ld x kk | or x y | and x y | xor x y =>
    simp only [Effect] at h
    subst h
    exact written_writeReg_of_written _ _ hq
  | add x y | sub x y | mul x y =>
    simp only [Effect] at h
    subst h
    exact written_writeReg_of_written _ _ (written_writeReg_of_written _ _ hq)
  | div x y =>
    obtain ⟨_, rfl⟩ := h
    exact written_writeReg_of_written _ _ (written_writeReg_of_written _ _ hq)

/-! ## Frames -/

theorem frame_trans {rs : List RegIdx} {s t u : State} (h : Frame rs s t) (h' : Frame rs t u) : Frame rs s u := by
  obtain ⟨hreg, ⟨hstack, hsp⟩, hmem, hkeys⟩ := h
  obtain ⟨hreg', ⟨hstack', hsp'⟩, hmem', hkeys'⟩ := h'
  refine ⟨fun r hr => ⟨?value, ?bit⟩, ⟨hstack'.trans hstack, hsp'.trans hsp⟩, fun a => (hmem' a).trans (hmem a),
    hkeys'.trans hkeys⟩
  case value => exact (hreg' r hr).1.trans (hreg r hr).1
  case bit => exact (hreg' r hr).2.trans (hreg r hr).2

theorem frame_refl (rs : List RegIdx) (s : State) : Frame rs s s :=
  ⟨fun _ _ => ⟨rfl, rfl⟩, ⟨rfl, rfl⟩, fun _ => rfl, rfl⟩

theorem setStatus_frame (s : State) (v : Status) : Frame [] s (s.setStatus v) :=
  ⟨fun r _ => ⟨setStatus_reg s v r, setStatus_written s v r⟩, ⟨setStatus_stack s v, setStatus_sp s v⟩,
    fun _ => congrArg (Memory.readByte · _) (setStatus_mem s v), setStatus_keys s v⟩

theorem advance_frame (s : State) : Frame [] s (advance s) := setPc_frame s _

/-! ## The obligations about all instructions -/

/-- Settles O16: a first unwritten operand is reported, and with none the instruction has its effect or reports its own
check. -/
theorem everyInstructionExecutes : Obligations.EveryInstructionExecutes := by
  unfold Obligations.EveryInstructionExecutes
  exact exec_next

/-- Settles O29: the two operand reads check V[x], then V[y], before anything else. -/
theorem unwrittenReadsFault : Obligations.UnwrittenReadsFault := by
  unfold Obligations.UnwrittenReadsFault
  exact fun i s r hfirst => ⟨_, exec_firstUnwritten hfirst, raiseFault_faultedBy _ i _ s⟩

/-- Settles O30: `exec_keepsRegs` for the instructions; a key event is at most one register write and a status. -/
theorem registerWritesAreListed : Obligations.RegisterWritesAreListed := by
  unfold Obligations.RegisterWritesAreListed
  exact ⟨fun i s t => exec_keepsRegs, fun s code => writeReg_keepsRegs s keyReg (keyByte code),
    fun s => ⟨keepsRegs_of_eq _ rfl rfl, keepsRegs_of_eq _ rfl rfl⟩⟩

end Sys2Proof.Machine
end

section
/-! SUPPORT. The cycle and the step, forwards and as one inversion: the effect of the instruction at the pc, or a fault with its
cause (spec/40_dispatch_loop.md R100 to R106, spec/60_exceptions.md R180 to R189). -/

namespace Sys2Proof.Machine

/-! ## The instruction at the pc (R52, R77) -/

theorem instrAt_iff_fetch {s : State} {i : Instr} : instrAt s = some i ↔ fetchWord s.mem s.pc = some (encode i) := by
  rw [instrAt_some]
  constructor
  · rintro ⟨w, hfetch, hdec⟩
    rw [hfetch, encode_of_decode hdec]
  · exact fun hfetch => ⟨encode i, hfetch, decode_encode i⟩

theorem pc_le_of_instrAt {s : State} {i : Instr} (h : instrAt s = some i) : s.pc.toNat + 1 ≤ 4095 :=
  (fetchWord_some.mp (instrAt_iff_fetch.mp h)).1

/-! ## The cycle, forwards -/

theorem cycle_fetch_past {s : State} (h : 4095 < s.pc.toNat + 1) :
    cycle s = .next (raiseFault (fetchBoundsRecord s.pc) s) := by
  simp only [cycle, fetchWord_none.mpr h]

theorem cycle_illegal {s : State} {w : Word} (hfetch : fetchWord s.mem s.pc = some w)
    (hrow : ∀ m, (opcodeRow m).selects w = false) :
    cycle s = .next (raiseFault (unknownOpcodeRecord w s.pc) (advance s)) := by
  simp only [cycle, hfetch, decode_error_iff.mpr hrow]

theorem cycle_instr {s : State} {i : Instr} (h : instrAt s = some i) : cycle s = exec i (advance s) := by
  simp only [cycle, instrAt_iff_fetch.mp h, decode_encode]

theorem cycle_next (s : State) : ∃ t, cycle s = .next t := by
  unfold cycle
  split
  · exact ⟨_, rfl⟩
  · split
    · exact ⟨_, rfl⟩
    · exact exec_next _ _

/-! ## What a cycle can do -/

/-- A cycle of `s` raises the fault with the record `r` in the state `u`, which is `s` until the pc has advanced. -/
inductive CycleFault (s : State) : FaultRecord → State → Prop where
  | fetch (past : 4095 < s.pc.toNat + 1) : CycleFault s (fetchBoundsRecord s.pc) s
  | illegal {w : Word} (fetched : fetchWord s.mem s.pc = some w) (noRow : ∀ m, (opcodeRow m).selects w = false) :
      CycleFault s (unknownOpcodeRecord w s.pc) (advance s)
  | exec {i : Instr} {kind : RunFault} {reg : Option RegIdx} (instr : instrAt s = some i)
      (cause : FaultCause i (advance s) kind reg) : CycleFault s (execRecord kind i reg (advance s)) (advance s)

theorem CycleFault.state {s u : State} {r : FaultRecord} (h : CycleFault s r u) : u = s ∨ u = advance s := by
  cases h with
  | fetch => exact .inl rfl
  | illegal | exec => exact .inr rfl

theorem cycle_effect_or_fault {s t : State} (h : cycle s = .next t) :
    (∃ i, instrAt s = some i ∧ Effect (advance s) t i) ∨ ∃ r u, CycleFault s r u ∧ t = raiseFault r u := by
  rcases cycle_cases h with ⟨hfetch, rfl⟩ | ⟨w, e, hfetch, hdec, rfl⟩ | ⟨w, i, hfetch, hdec, hexec⟩
  · exact .inr ⟨_, _, .fetch (fetchWord_none.mp hfetch), rfl⟩
  · rw [decode_error hdec] at hdec
    exact .inr ⟨_, _, .illegal hfetch (decode_error_iff.mp hdec), rfl⟩
  · have hinstr : instrAt s = some i := instrAt_some.mpr ⟨w, hfetch, hdec⟩
    rcases exec_cases hexec with ⟨_, heffect⟩ | ⟨kind, reg, hcause, rfl⟩
    · exact .inl ⟨i, hinstr, heffect⟩
    · exact .inr ⟨_, _, .exec hinstr hcause, rfl⟩

/-! ## The step, by status (R100, R172) -/

theorem setStatus_self {s : State} {v : Status} (h : s.status = v) : s.setStatus v = s := by
  subst h
  rfl

theorem step_idle {s : State} (h : s.status = .idle) : step s = cycle (s.setStatus .running) := by
  simp [step, stepByStatus, h, hostRun, ifAccepted, hostAccepts, andThen]

theorem step_ended {s : State} (h : s.status = .halted ∨ ∃ r, s.status = .faulted r) : step s = .refused .runEnded := by
  obtain h | ⟨r, h⟩ := h <;> simp [step, stepByStatus, h]

theorem step_key {s : State} {e : KeyEvent} {rest : List KeyEvent} (h : s.status = .waitKey) (hk : s.keys = e :: rest) :
    step s = .next (onKey e (s.setKeys rest)) := by
  simp [step_waitKey h, waitStep, hk]

theorem step_no_key {s : State} (h : s.status = .waitKey) (hk : s.keys = []) : step s = .refused .waitingForKey := by
  rw [step_waitKey h, waitStep_none hk]

/-- Outside WaitKey a step is a cycle of the started run; in WaitKey it is one key event. -/
theorem step_cycle_or_key {s t : State} (h : step s = .next t) :
    (s.status ≠ .waitKey ∧ cycle (s.setStatus .running) = .next t) ∨
      (s.status = .waitKey ∧ ∃ e rest, s.keys = e :: rest ∧ t = onKey e (s.setKeys rest)) := by
  rcases step_cases h with ⟨hs, hc⟩ | ⟨hs, hc⟩ | ⟨hs, hw⟩
  · exact .inl ⟨by simp [hs], hc⟩
  · exact .inl ⟨by simp [hs], (setStatus_self hs).symm ▸ hc⟩
  · exact .inr ⟨hs, waitStep_eq_next.mp hw⟩

theorem step_next {s : State} (h : s.status = .idle ∨ s.status = .running ∨ (s.status = .waitKey ∧ s.keys ≠ [])) :
    ∃ t, step s = .next t := by
  rcases h with hs | hs | ⟨hs, hk⟩
  · rw [step_idle hs]
    exact cycle_next _
  · rw [step_running hs]
    exact cycle_next s
  · obtain ⟨e, rest, hkeys⟩ := List.exists_cons_of_ne_nil hk
    exact ⟨_, step_key hs hkeys⟩

/-! ## Key events -/

@[simp] theorem onKey_pc (e : KeyEvent) (s : State) : (onKey e s).pc = s.pc := by cases e <;> rfl

@[simp] theorem onKey_mem (e : KeyEvent) (s : State) : (onKey e s).mem = s.mem := by cases e <;> rfl

theorem onKey_status (e : KeyEvent) (s : State) : (onKey e s).status = .running ∨ (onKey e s).status = s.status := by
  cases e with
  | char code => exact .inl rfl
  | cancel => exact .inl rfl
  | other => exact .inr rfl

theorem onKey_keeps_written (e : KeyEvent) {s : State} {q : RegIdx} (h : s.written q = true) :
    (onKey e s).written q = true := by
  cases e with
  | char code => exact written_writeReg_of_written keyReg (keyByte code) h
  | cancel | other => exact h

/-! ## What a fault of a running step says (R180 to R184) -/

/-- No instruction's own effect sets a fault status. -/
theorem effect_not_faulted {i : Instr} {s t : State} {r : FaultRecord} (hs : s.status = .running)
    (h : Effect s t i) : t.status ≠ .faulted r := by
  rcases effect_status h with ⟨_, ht⟩ | ⟨_, ht⟩ | ⟨_, _, ht⟩ <;> simp [ht, hs]

theorem cycleFault_of_faulted {s t : State} {r : FaultRecord} (hs : s.status = .running) (h : cycle s = .next t)
    (hr : t.status = .faulted r) : ∃ u, CycleFault s r u ∧ t = raiseFault r u := by
  rcases cycle_effect_or_fault h with ⟨i, _, heffect⟩ | ⟨r', u, hfault, rfl⟩
  · exact absurd hr (effect_not_faulted (s := advance s) hs heffect)
  · obtain rfl : r' = r := Status.faulted.inj hr
    exact ⟨u, hfault, rfl⟩

theorem CycleFault.frame {s u : State} {r : FaultRecord} (h : CycleFault s r u) : Frame [] s (raiseFault r u) := by
  refine frame_trans ?_ (raiseFault_frame r u)
  obtain rfl | rfl := h.state
  · exact frame_refl [] u
  · exact advance_frame s

theorem CycleFault.addr {s u : State} {r : FaultRecord} (h : CycleFault s r u) : r.addr = s.pc := by
  cases h with
  | fetch | illegal => rfl
  | exec => exact instrAddr_advance s

theorem CycleFault.opcode {s u : State} {r : FaultRecord} (h : CycleFault s r u) :
    r.opcode = fetchWord s.mem s.pc := by
  cases h with
  | fetch past => exact (fetchWord_none.mpr past).symm
  | illegal fetched => exact fetched.symm
  | exec instr => exact (instrAt_iff_fetch.mp instr).symm

theorem FaultCause.kind_ne_fetchBounds {i : Instr} {s : State} {kind : RunFault} {reg : Option RegIdx}
    (h : FaultCause i s kind reg) : kind ≠ .fetchBounds := by
  cases h <;> nofun

theorem CycleFault.pc {s u : State} {r : FaultRecord} (h : CycleFault s r u) :
    u.pc = if r.kind = .fetchBounds then s.pc else s.pc + 2 := by
  cases h with
  | fetch | illegal => rfl
  | exec instr cause => exact (if_neg cause.kind_ne_fetchBounds).symm

/-! ## The cause of each fault -/

/-- What makes a running step end in a fault of each kind (R180, R185). -/
def KindCause (s : State) : RunFault → Prop
  | .fetchBounds => 4095 < s.pc.toNat + 1
  | .unknownOpcode => ∃ w, fetchWord s.mem s.pc = some w ∧ ∀ m, (opcodeRow m).selects w = false
  | .stackOverflow => s.sp.val = 16 ∧ ∃ nnn, instrAt s = some (.call nnn)
  | .stackUnderflow => s.sp.val = 0 ∧ instrAt s = some .ret
  | .divideByZero => ∃ x y, instrAt s = some (.div x y) ∧ s.written x = true ∧ s.written y = true ∧ s.reg y = 0
  | .unwrittenRegisterRead => ∃ i q, instrAt s = some i ∧ q ∈ Reads i ∧ s.written q = false

theorem CycleFault.kindCause {s u : State} {r : FaultRecord} (h : CycleFault s r u) : KindCause s r.kind := by
  cases h with
  | fetch past => exact past
  | illegal fetched noRow => exact ⟨_, fetched, noRow⟩
  | exec instr cause =>
    cases cause with
    | unwritten read clear => exact ⟨_, _, instr, read, clear⟩
    | overflow isCall full => exact ⟨full, _, isCall ▸ instr⟩
    | underflow isRet empty => exact ⟨empty, isRet ▸ instr⟩
    | divide isDiv written zero =>
      subst isDiv
      obtain ⟨hx, hy⟩ := (operandsWritten_pair rfl).mp written
      exact ⟨_, _, instr, hx, hy, zero⟩

/-- With a clear written bit among the operands, one of them is the first. -/
theorem exec_unwritten {i : Instr} {s : State} {q : RegIdx} (hq : q ∈ Reads i) (hclear : s.written q = false) :
    ∃ r, exec i s = .next (raiseFault (execRecord .unwrittenRegisterRead i (some r) s) s) := by
  cases hf : firstUnwritten i s with
  | some r => exact ⟨r, exec_firstUnwritten hf⟩
  | none => exact absurd (firstUnwritten_none.mp hf q hq) (by simp [hclear])

theorem cycle_of_kindCause {s : State} {k : RunFault} (h : KindCause s k) :
    ∃ r u, cycle s = .next (raiseFault r u) ∧ r.kind = k := by
  cases k with
  | fetchBounds => exact ⟨_, _, cycle_fetch_past h, rfl⟩
  | unknownOpcode =>
    obtain ⟨w, hfetch, hrow⟩ := h
    exact ⟨_, _, cycle_illegal hfetch hrow, rfl⟩
  | stackOverflow =>
    obtain ⟨hfull, nnn, hinstr⟩ := h
    exact ⟨_, _, (cycle_instr hinstr).trans (exec_call_full nnn hfull), rfl⟩
  | stackUnderflow =>
    obtain ⟨hempty, hinstr⟩ := h
    exact ⟨_, _, (cycle_instr hinstr).trans (exec_ret_empty hempty), rfl⟩
  | divideByZero =>
    obtain ⟨x, y, hinstr, hx, hy, hzero⟩ := h
    have hwritten : OperandsWritten (.div x y) (advance s) := (operandsWritten_pair rfl).mpr ⟨hx, hy⟩
    exact ⟨_, _, (cycle_instr hinstr).trans (exec_div_zero hwritten hzero), rfl⟩
  | unwrittenRegisterRead =>
    obtain ⟨i, q, hinstr, hq, hclear⟩ := h
    obtain ⟨r, hexec⟩ := exec_unwritten (s := advance s) hq hclear
    exact ⟨_, _, (cycle_instr hinstr).trans hexec, rfl⟩

/-! ## The pc after an instruction (R26) -/

/-- The pc that an instruction's effect leaves, from `s`, whose pc holds a + 2. -/
def PcAfter (s t : State) : Instr → Prop
  | .ret => ∀ j : Fin 16, j.val + 1 = s.sp.val → t.pc = s.stack[j]
  | .jmp nnn | .call nnn => t.pc = zext16 nnn
  | .se x kk => t.pc = if s.reg x = kk then s.pc + 2 else s.pc
  | .sne x kk => t.pc = if s.reg x = kk then s.pc else s.pc + 2
  | .halt | .ld _ _ | .or _ _ | .and _ _ | .xor _ _ | .add _ _ | .sub _ _ | .mul _ _ | .div _ _ | .ldk => t.pc = s.pc

theorem effect_pc {i : Instr} {s t : State} (h : Effect s t i) : PcAfter s t i := by
  cases i with
  | ret => exact (popPc_some h).pc
  | call nnn =>
    obtain ⟨u, _, rfl⟩ := h
    rfl
  | se x kk | sne x kk =>
    simp only [Effect] at h
    subst h
    exact apply_ite State.pc _ _ _
  | div x y =>
    obtain ⟨_, rfl⟩ := h
    rfl
  | halt | jmp nnn | ld x kk | or x y | and x y | xor x y | add x y | sub x y | mul x y | ldk =>
    simp only [Effect] at h
    subst h
    rfl

/-! ## Where a run ends or waits (R102, R103) -/

theorem effect_halts {i : Instr} {s t : State} (hs : s.status = .running) (h : Effect s t i)
    (ht : t.status = .halted) : i = .halt := by
  rcases effect_status h with ⟨hi, _⟩ | ⟨_, hw⟩ | ⟨_, _, hk⟩
  · exact hi
  · simp [hw] at ht
  · simp [hk, hs] at ht

theorem effect_waits {i : Instr} {s t : State} (hs : s.status = .running) (h : Effect s t i)
    (ht : t.status = .waitKey) : i = .ldk := by
  rcases effect_status h with ⟨_, hh⟩ | ⟨hi, _⟩ | ⟨_, _, hk⟩
  · simp [hh] at ht
  · exact hi
  · simp [hk, hs] at ht

/-- An instruction that only sets the status `v`, and is the only one with an effect that does, is at the pc exactly where
the cycle leads to `v`. -/
theorem cycle_status_iff_instrAt {s t : State} {i : Instr} {v : Status} (hcycle : cycle s = .next t)
    (hv : ∀ r, v ≠ .faulted r) (hexec : ∀ u : State, exec i u = .next (u.setStatus v))
    (honly : ∀ j, Effect (advance s) t j → t.status = v → j = i) : t.status = v ↔ instrAt s = some i := by
  constructor
  · intro ht
    rcases cycle_effect_or_fault hcycle with ⟨j, hinstr, heffect⟩ | ⟨r, u, _, rfl⟩
    · rw [hinstr, honly j heffect ht]
    · exact absurd ht.symm (hv r)
  · intro hinstr
    rw [cycle_instr hinstr, hexec, next_inj] at hcycle
    rw [← hcycle, setStatus_status]

/-! ## The obligations about the cycle -/

/-- Settles O10: two bytes as one word are 256 times the first plus the second. -/
theorem fetchIsBigEndian : Obligations.FetchIsBigEndian := by
  unfold Obligations.FetchIsBigEndian
  exact fun m a => ⟨fun hfits => ⟨_, fetchWord_some.mpr ⟨hfits, rfl⟩, wordOfBytes_toNat _ _⟩, fetchWord_none.mpr⟩

/-- Settles O11: the fetch succeeds, so the word it gives is the instruction at the pc. -/
theorem stepRunsTheDecodedInstruction : Obligations.StepRunsTheDecodedInstruction := by
  unfold Obligations.StepRunsTheDecodedInstruction
  intro s i hs hpc hdec
  have hinstr : instrAt s = some i := instrAt_some.mpr ⟨_, fetchWord_some.mpr ⟨hpc, rfl⟩, hdec⟩
  exact (step_running hs).trans (cycle_instr hinstr)

/-- Settles O12: a word that no row selects decodes to an error, after the advance. -/
theorem unknownWordEndsTheRun : Obligations.UnknownWordEndsTheRun := by
  unfold Obligations.UnknownWordEndsTheRun
  intro s w hs hfetch hrow
  exact ⟨_, (step_running hs).trans (cycle_illegal hfetch hrow), rfl, rfl,
    CycleFault.frame (.illegal hfetch hrow)⟩

/-- Settles O13: the fetch fails before the advance. -/
theorem fetchPastTheEndEndsTheRun : Obligations.FetchPastTheEndEndsTheRun := by
  unfold Obligations.FetchPastTheEndEndsTheRun
  intro s hs hpast
  exact ⟨_, (step_running hs).trans (cycle_fetch_past hpast), rfl, rfl, raiseFault_frame _ s⟩

/-- Settles O14: one case per status; a cycle and a key event always answer a next state. -/
theorem stepStopsOnlyWhereTheSpecHasNoStep : Obligations.StepStopsOnlyWhereTheSpecHasNoStep := by
  unfold Obligations.StepStopsOnlyWhereTheSpecHasNoStep
  exact fun s => ⟨step_next, fun ⟨hs, hk⟩ => step_no_key hs hk, step_ended⟩

/-- Settles O15: run() is accepted in Idle, and the step of a running block is its cycle. -/
theorem idleStepStartsTheRun : Obligations.IdleStepStartsTheRun := by
  unfold Obligations.IdleStepStartsTheRun
  exact fun s hs => ⟨hostRun_eq_next.mpr ⟨hs, rfl⟩, (step_idle hs).trans (step_running rfl).symm⟩

/-- Settles O33: an effect and a fault change neither memory nor the events to come, and a key event takes the first. -/
theorem stepKeepsMemory : Obligations.StepKeepsMemory := by
  unfold Obligations.StepKeepsMemory
  intro s t hstep
  rcases step_cycle_or_key hstep with ⟨hs, hcycle⟩ | ⟨hs, e, rest, hkeys, rfl⟩
  · have hkeep : t.mem = s.mem ∧ t.keys = s.keys := by
      rcases cycle_effect_or_fault hcycle with ⟨i, _, heffect⟩ | ⟨r, u, hfault, rfl⟩
      · exact effect_mem_keys (s := advance (s.setStatus .running)) heffect
      · obtain rfl | rfl := hfault.state <;> exact ⟨rfl, rfl⟩
    exact ⟨hkeep.1, fun _ => hkeep.2, fun hw => absurd hw hs⟩
  · exact ⟨onKey_mem e _, fun hw => absurd hs hw, fun _ => ⟨e, by simp [hkeys]⟩⟩

/-- Settles O36: no step clears a written bit, and only a clear bit causes an UnwrittenRegisterRead. -/
theorem writtenRegistersNeverFault : Obligations.WrittenRegistersNeverFault := by
  unfold Obligations.WrittenRegistersNeverFault
  refine ⟨fun p keys hsome r => ?reset, fun s t hall hstep => ?step⟩
  case reset => simp [State.written, State.resetWith, hsome]
  rcases step_cycle_or_key hstep with ⟨_, hcycle⟩ | ⟨hs, e, rest, hkeys, rfl⟩
  · refine ⟨?keeps, fun r hr hkind => ?noFault⟩
    case keeps =>
      rcases cycle_effect_or_fault hcycle with ⟨i, _, heffect⟩ | ⟨r, u, hfault, rfl⟩
      · exact fun q => effect_keeps_written heffect (hall q)
      · obtain rfl | rfl := hfault.state <;> exact hall
    case noFault =>
      obtain ⟨u, hfault, _⟩ := cycleFault_of_faulted rfl hcycle hr
      obtain ⟨i, q, _, _, hclear⟩ : KindCause (s.setStatus .running) .unwrittenRegisterRead :=
        hkind ▸ hfault.kindCause
      exact absurd (hall q) (Bool.eq_false_iff.mp hclear)
  · refine ⟨fun q => onKey_keeps_written e (hall q), fun r hr => ?_⟩
    rcases onKey_status e (s.setKeys rest) with h | h <;> simp [h, hs] at hr

/-- Settles O37: the record, the pc and the frame of each way a cycle can fault. -/
theorem faultsArePrecise : Obligations.FaultsArePrecise := by
  unfold Obligations.FaultsArePrecise
  intro s t r hs hstep hr
  rw [step_running hs] at hstep
  obtain ⟨u, hfault, rfl⟩ := cycleFault_of_faulted hs hstep hr
  exact ⟨hfault.frame, hfault.addr, hfault.opcode, hfault.pc⟩

/-- Settles O38: each way a cycle can fault has its cause, and each cause makes the cycle raise its fault. -/
theorem faultsHaveTheirCauses : Obligations.FaultsHaveTheirCauses := by
  unfold Obligations.FaultsHaveTheirCauses
  intro s k hs
  have hiff : (∃ t r, step s = .next t ∧ t.status = .faulted r ∧ r.kind = k) ↔ KindCause s k := by
    rw [step_running hs]
    constructor
    · rintro ⟨t, r, hcycle, hr, rfl⟩
      obtain ⟨u, hfault, _⟩ := cycleFault_of_faulted hs hcycle hr
      exact hfault.kindCause
    · intro hcause
      obtain ⟨r, u, hcycle, hkind⟩ := cycle_of_kindCause hcause
      exact ⟨_, r, hcycle, raiseFault_status r u, hkind⟩
  cases k <;> exact hiff

/-- Settles O39: of the effects only HALT's halts and only LDK's waits, and a fault does neither. -/
theorem runEndsOnlyAtHaltOrFault : Obligations.RunEndsOnlyAtHaltOrFault := by
  unfold Obligations.RunEndsOnlyAtHaltOrFault
  refine ⟨fun s t hs hstep => ?running, fun s t hs hstep => ?waiting⟩
  case running =>
    rw [step_running hs] at hstep
    have hhalt : t.status = .halted ↔ instrAt s = some .halt :=
      cycle_status_iff_instrAt hstep nofun (fun _ => rfl) fun j => effect_halts (s := advance s) hs
    have hwait : t.status = .waitKey ↔ instrAt s = some .ldk :=
      cycle_status_iff_instrAt hstep nofun (fun _ => rfl) fun j => effect_waits (s := advance s) hs
    refine ⟨hhalt.trans instrAt_iff_fetch, hwait.trans instrAt_iff_fetch, ?_⟩
    rcases cycle_effect_or_fault hstep with ⟨i, _, heffect⟩ | ⟨r, u, _, rfl⟩
    · rcases effect_status heffect with ⟨_, h⟩ | ⟨_, h⟩ | ⟨_, _, h⟩ <;> simp [h, hs]
    · simp
  case waiting =>
    rw [step_waitKey hs] at hstep
    obtain ⟨e, rest, _, rfl⟩ := waitStep_eq_next.mp hstep
    exact (onKey_status e _).imp_right fun h => h.trans hs

/-- Settles O40: `effect_pc`, counted from a instead of a + 2. -/
theorem pcAfterEachInstruction : Obligations.PcAfterEachInstruction := by
  unfold Obligations.PcAfterEachInstruction
  refine ⟨fun s t i hs hinstr hstep hok => ?running, fun s t hs hstep => ?waiting⟩
  case running =>
    rw [step_running hs] at hstep
    have hpc : PcAfter (advance s) t i := by
      rcases cycle_effect_or_fault hstep with ⟨j, hj, heffect⟩ | ⟨r, u, _, rfl⟩
      · obtain rfl : j = i := Option.some.inj (hj.symm.trans hinstr)
        exact effect_pc heffect
      · exact absurd (raiseFault_status r u) (hok r)
    have htwice : s.pc + 2 + 2 = s.pc + 4 := BitVec.add_assoc _ _ _
    cases i with
    | jmp nnn | call nnn => exact (congrArg BitVec.toNat hpc).trans (zext16_toNat nnn)
    | se x kk => simpa only [PcAfter, advance_pc, advance_reg, htwice] using hpc
    | sne x kk => simpa only [PcAfter, advance_pc, advance_reg, htwice, ne_eq, ite_not] using hpc
    | ret | halt | ld | or | and | xor | add | sub | mul | div | ldk => exact hpc
  case waiting =>
    rw [step_waitKey hs] at hstep
    obtain ⟨e, rest, _, rfl⟩ := waitStep_eq_next.mp hstep
    exact onKey_pc e _

end Sys2Proof.Machine
end

section
/-! SUPPORT. The machine's invariant and the call stack under steps (spec/10_state.md R28 to R30, spec/41_control_flow.md R120 to
R126). -/

namespace Sys2Proof.Machine

/-! ## Pushes and pops, forwards -/

theorem pushed_of_room {s : State} (h : s.sp.val < 16) : ∃ u, s.pushPc = some u ∧ Pushed s u := by
  cases hpush : s.pushPc with
  | none => exact absurd (pushPc_none.mp hpush) (Nat.ne_of_lt h)
  | some u => exact ⟨u, rfl, pushPc_some hpush⟩

theorem popped_of_occupied {s : State} (h : s.sp.val ≠ 0) : ∃ u, s.popPc = some u ∧ Popped s u := by
  cases hpop : s.popPc with
  | none => exact absurd (popPc_none.mp hpop) h
  | some u => exact ⟨u, rfl, popPc_some hpop⟩

theorem exec_call_push {s u : State} (nnn : Addr12) (h : s.pushPc = some u) :
    exec (.call nnn) s = .next (u.setPc (zext16 nnn)) :=
  exec_effect (by simp [OperandsWritten, Reads]) ⟨u, h, rfl⟩

theorem exec_ret_pop {s u : State} (h : s.popPc = some u) : exec .ret s = .next u :=
  exec_effect (by simp [OperandsWritten, Reads]) h

/-- Every slot, after a push. -/
theorem Pushed.slot {s t : State} (h : Pushed s t) (j : Fin 16) :
    t.stack[j] = if j.val = s.sp.val then s.pc else s.stack[j] := by
  split
  · next hj => exact h.top j hj
  · next hj => exact h.rest j hj

theorem keepsMemory_of_eq {s t : State} (h : t.mem = s.mem) : KeepsMemory s t :=
  fun _ => congrArg (Memory.readByte · _) h

/-! ## What one step does to the call stack (R30) -/

/-- A step pushes a + 2 by a CALL, pops by a RET, or leaves the call stack alone. -/
theorem step_stack_cases {s t : State} (h : step s = .next t) :
    (s.status ≠ .waitKey ∧ ∃ nnn u, instrAt s = some (.call nnn) ∧ Pushed (advance s) u ∧ t.stack = u.stack ∧
        t.sp = u.sp) ∨
      (s.status ≠ .waitKey ∧ instrAt s = some .ret ∧ s.sp.val ≠ 0 ∧ t.sp.val + 1 = s.sp.val ∧ t.stack = s.stack) ∨
      KeepsStack s t := by
  rcases step_cycle_or_key h with ⟨hs, hcycle⟩ | ⟨_, e, rest, _, rfl⟩
  · rcases cycle_effect_or_fault hcycle with ⟨i, hinstr, heffect⟩ | ⟨r, u, hfault, rfl⟩
    · rcases effect_stack_cases heffect with ⟨nnn, u, rfl, hpush, rfl⟩ | ⟨rfl, hpop⟩ | ⟨_, _, hkeep⟩
      · obtain ⟨room, sp, top, rest, V, Vdef, pc, mem, status, keys⟩ := hpush
        exact .inl ⟨hs, nnn, u.setStatus s.status, hinstr,
          ⟨room, sp, top, rest, V, Vdef, pc, mem, rfl, keys⟩, rfl, rfl⟩
      · exact .inr (.inl ⟨hs, hinstr, hpop.occupied, hpop.sp, hpop.stack⟩)
      · exact .inr (.inr hkeep)
    · obtain rfl | rfl := hfault.state <;> exact .inr (.inr ⟨rfl, rfl⟩)
  · exact .inr (.inr (onKey_keepsStack e _))

/-! ## The invariant (R28, R50) -/

theorem add_two_toNat_le (a : Word) : (a + 2).toNat ≤ a.toNat + 2 := by
  rw [BitVec.toNat_add]
  exact Nat.mod_le _ _

theorem slotsBounded_of_keepsStack {s t : State} (hkeep : KeepsStack s t) (h : SlotsBounded s) : SlotsBounded t := by
  obtain ⟨hstack, hsp⟩ := hkeep
  intro j hj
  rw [hsp] at hj
  rw [hstack]
  exact h j hj

theorem step_slotsBounded {s t : State} (h : SlotsBounded s) (hstep : step s = .next t) : SlotsBounded t := by
  rcases step_stack_cases hstep with ⟨_, nnn, u, hinstr, hpush, hstack, hsp⟩ | ⟨_, _, _, hsp, hstack⟩ | hkeep
  · intro j hj
    have hspu : u.sp.val = s.sp.val + 1 := hpush.sp
    rw [hsp, hspu] at hj
    rw [hstack, hpush.slot j]
    split
    · have hpc := pc_le_of_instrAt hinstr
      have hadd := add_two_toNat_le s.pc
      simp only [advance_pc]
      omega
    · next hne =>
      simp only [advance_sp] at hne
      exact h j (by omega)
  · intro j hj
    rw [hstack]
    exact h j (by omega)
  · exact slotsBounded_of_keepsStack hkeep h

/-- From a pc of at most 4096 and bounded return addresses, an effect leaves the pc at most one skip further. -/
theorem effect_pc_le {i : Instr} {s t : State} (h : Effect s t i) (hslots : SlotsBounded s)
    (hpc : s.pc.toNat ≤ 4096) : t.pc.toNat ≤ 4098 := by
  have hafter := effect_pc h
  have hskip := add_two_toNat_le s.pc
  cases i with
  | ret =>
    have hne := (popPc_some h).occupied
    have hlt := s.sp.isLt
    obtain ⟨j, hj⟩ : ∃ j : Fin 16, j.val + 1 = s.sp.val :=
      ⟨⟨s.sp.val - 1, by omega⟩, Nat.sub_add_cancel (Nat.pos_of_ne_zero hne)⟩
    have hle := hslots j (by omega)
    rw [hafter j hj]
    omega
  | jmp nnn | call nnn =>
    have hlt := nnn.isLt
    rw [show t.pc = zext16 nnn from hafter, zext16_toNat]
    omega
  | se x kk | sne x kk =>
    simp only [PcAfter] at hafter
    rw [hafter]
    split <;> omega
  | halt | ld x kk | or x y | and x y | xor x y | add x y | sub x y | mul x y | div x y | ldk =>
    simp only [PcAfter] at hafter
    rw [hafter]
    omega

theorem cycle_pc_le {s t : State} (hcycle : cycle s = .next t) (hslots : SlotsBounded s) (hpc : s.pc.toNat ≤ 4098) :
    t.pc.toNat ≤ 4098 := by
  have hadd := add_two_toNat_le s.pc
  rcases cycle_effect_or_fault hcycle with ⟨i, hinstr, heffect⟩ | ⟨r, u, hfault, rfl⟩
  · have hfetched := pc_le_of_instrAt hinstr
    exact effect_pc_le heffect hslots (by rw [advance_pc]; omega)
  · rw [raiseFault_pc]
    cases hfault with
    | fetch => exact hpc
    | illegal fetched =>
      have hfetched := (fetchWord_some.mp fetched).1
      rw [advance_pc]
      omega
    | exec instr =>
      have hfetched := pc_le_of_instrAt instr
      rw [advance_pc]
      omega

/-! ## Frames of the call stack (R126) -/

theorem holdsFrames_of_keepsStack {d : Nat} {f : Vector Word 16} {s t : State} (hkeep : KeepsStack s t)
    (h : HoldsFrames d f s) : HoldsFrames d f t := by
  obtain ⟨hstack, hsp⟩ := hkeep
  obtain ⟨hd, hslots⟩ := h
  exact ⟨hsp ▸ hd, fun j hj => by rw [hstack]; exact hslots j hj⟩

theorem step_holdsFrames {d : Nat} {f : Vector Word 16} {s t : State} (h : HoldsFrames d f s) (hstep : step s = .next t)
    (hlast : ¬ (0 < d ∧ s.sp.val = d ∧ s.status ≠ .waitKey ∧ instrAt s = some .ret)) : HoldsFrames d f t := by
  obtain ⟨hd, hslots⟩ := h
  rcases step_stack_cases hstep with ⟨_, nnn, u, _, hpush, hstack, hsp⟩ | ⟨hs, hret, hne, hsp, hstack⟩ | hkeep
  · have hspu : u.sp.val = s.sp.val + 1 := hpush.sp
    refine ⟨by rw [hsp]; omega, fun j hj => ?_⟩
    rw [hstack, hpush.rest j (by simp only [advance_sp]; omega)]
    exact hslots j hj
  · have hdeep : ¬ (0 < d ∧ s.sp.val = d) := fun ⟨hpos, heq⟩ => hlast ⟨hpos, heq, hs, hret⟩
    refine ⟨by omega, fun j hj => ?_⟩
    rw [hstack]
    exact hslots j hj
  · exact holdsFrames_of_keepsStack hkeep ⟨hd, hslots⟩

theorem holdsFrames_self (s : State) : HoldsFrames s.sp.val s.stack s := ⟨Nat.le_refl _, fun _ _ => rfl⟩

/-- What a run that comes back to the depth of `s` leaves of the call stack: the pointer, and every occupied slot. -/
def SameFrames (s t : State) : Prop := t.sp = s.sp ∧ HoldsFrames s.sp.val s.stack t

theorem sameFrames_trans {s t u : State} (h : SameFrames s t) (h' : SameFrames t u) : SameFrames s u := by
  obtain ⟨hsp, hd, hslots⟩ := h
  obtain ⟨hsp', hd', hslots'⟩ := h'
  refine ⟨hsp'.trans hsp, hsp ▸ hd', fun j hj => ?_⟩
  rw [hslots' j (hsp ▸ hj), hslots j hj]

theorem sameFrames_of_keepsStack {s t : State} (h : KeepsStack s t) : SameFrames s t :=
  ⟨h.2, holdsFrames_of_keepsStack h (holdsFrames_self s)⟩

theorem plainStep_keepsStack {s t : State} (h : PlainStep s t) : KeepsStack s t := by
  obtain ⟨hstep, hkey | ⟨_, i, hinstr, hcall, hret⟩⟩ := h
  · rcases step_stack_cases hstep with ⟨hs, _⟩ | ⟨hs, _⟩ | hkeep
    · exact absurd hkey hs
    · exact absurd hkey hs
    · exact hkeep
  · rcases step_stack_cases hstep with ⟨_, nnn, _, hinstr', _⟩ | ⟨_, hinstr', _⟩ | hkeep
    · exact absurd (Option.some.inj (hinstr.symm.trans hinstr')) (hcall nnn)
    · exact absurd (Option.some.inj (hinstr.symm.trans hinstr')) hret
    · exact hkeep

theorem callStep_pushed {s t : State} (h : CallStep s t) :
    ∃ nnn u, Pushed (advance s) u ∧ t = u.setPc (zext16 nnn) := by
  obtain ⟨hstep, hs, hroom, nnn, hinstr⟩ := h
  obtain ⟨u, hpush, hpushed⟩ := pushed_of_room (s := advance s) hroom
  rw [step_running hs, cycle_instr hinstr, exec_call_push nnn hpush, next_inj] at hstep
  exact ⟨nnn, u, hpushed, hstep.symm⟩

theorem retStep_popped {s t : State} (h : RetStep s t) : Popped (advance s) t := by
  obtain ⟨hstep, hs, hne, hinstr⟩ := h
  obtain ⟨u, hpop, hpopped⟩ := popped_of_occupied (s := advance s) hne
  rw [step_running hs, cycle_instr hinstr, exec_ret_pop hpop, next_inj] at hstep
  exact hstep ▸ hpopped

/-- A CALL, a stretch that comes back to its depth with its frames, and a RET: the RET pops what the CALL pushed. -/
theorem call_ret_returns {s t u v : State} (hcall : CallStep s t) (hrun : SameFrames t u) (hret : RetStep u v) :
    SameFrames s v ∧ v.pc = s.pc + 2 := by
  obtain ⟨nnn, w, hpush, rfl⟩ := callStep_pushed hcall
  obtain ⟨hsp, _, hslots⟩ := hrun
  have hpop := retStep_popped hret
  have hspPush : w.sp.val = s.sp.val + 1 := hpush.sp
  have hspPop : v.sp.val + 1 = u.sp.val := hpop.sp
  have hspRun : u.sp.val = w.sp.val := congrArg Fin.val hsp
  have hslot : ∀ j : Fin 16, j.val < w.sp.val → v.stack[j] = w.stack[j] := by
    intro j hj
    rw [hpop.stack]
    exact hslots j hj
  have hspBack : v.sp.val = s.sp.val := by omega
  refine ⟨⟨Fin.ext hspBack, by omega, fun j hj => ?frames⟩, ?pc⟩
  case frames =>
    rw [hslot j (by omega)]
    exact hpush.rest j (Nat.ne_of_lt hj)
  case pc =>
    obtain ⟨top, htop⟩ : ∃ top : Fin 16, top.val = s.sp.val := ⟨⟨s.sp.val, hpush.room⟩, rfl⟩
    have hlive : top.val < w.sp.val := by omega
    have hlast : top.val + 1 = u.sp.val := by omega
    rw [hpop.pc top hlast]
    exact (hslots top hlive).trans (hpush.top top htop)

theorem balancedRun_sameFrames {s t : State} (h : BalancedRun s t) : SameFrames s t := by
  induction h with
  | refl s => exact sameFrames_of_keepsStack ⟨rfl, rfl⟩
  | plain hplain _ ih => exact sameFrames_trans (sameFrames_of_keepsStack (plainStep_keepsStack hplain)) ih
  | nested hcall _ hret _ ihInner ihRest => exact sameFrames_trans (call_ret_returns hcall ihInner hret).1 ihRest

/-! ## A skip -/

/-- What a skip or no skip leaves (R123, R124). -/
theorem skip_frame {s t : State} (h : t = skipNext s ∨ t = s) : t.status = s.status ∧ Frame [] s t := by
  obtain rfl | rfl := h
  · exact ⟨rfl, setPc_frame s _⟩
  · exact ⟨rfl, frame_refl [] t⟩

/-! ## The obligations about the invariant and the call stack -/

/-- Settles O34: memory is never written, a pushed pc comes from a fetch that succeeded, and a popped one was pushed. -/
theorem stepKeepsTheInvariant : Obligations.StepKeepsTheInvariant := by
  unfold Obligations.StepKeepsTheInvariant
  intro s t hinv hstep
  obtain ⟨hwf, hslots, hpc⟩ := hinv
  obtain ⟨hmem, _⟩ := stepKeepsMemory s t hstep
  refine ⟨hmem ▸ hwf, step_slotsBounded hslots hstep, ?_⟩
  rcases step_cycle_or_key hstep with ⟨_, hcycle⟩ | ⟨_, e, rest, _, rfl⟩
  · exact cycle_pc_le hcycle hslots hpc
  · rw [onKey_pc]
    exact hpc

/-- Settles O35: memory and call stack are empty after reset. -/
theorem resetMeetsTheInvariant : Obligations.ResetMeetsTheInvariant := by
  unfold Obligations.ResetMeetsTheInvariant
  have hreset : ∀ (p : ResetParams) (keys : List KeyEvent), p.entryPc.toNat ≤ 4098 →
      MachineInv (State.resetWith p keys) :=
    fun p keys hpc => ⟨rfl, fun j hj => absurd hj (Nat.not_lt_zero _), hpc⟩
  exact ⟨hreset, hreset ResetParams.default [] (by decide)⟩

/-- Settles O53: a push writes the slot at sp, which is at or above d, and a pop that keeps d occupied writes none. -/
theorem outerFramesAreKept : Obligations.OuterFramesAreKept := by
  unfold Obligations.OuterFramesAreKept
  exact fun d f s t => step_holdsFrames

/-- Settles O41: by induction over the balanced stretch, which comes back to the frames the CALL left. -/
theorem callReturnsToTheNextInstruction : Obligations.CallReturnsToTheNextInstruction := by
  unfold Obligations.CallReturnsToTheNextInstruction
  intro s t u v hcall hrun hret
  obtain ⟨⟨hsp, _⟩, hpc⟩ := call_ret_returns hcall (balancedRun_sameFrames hrun) hret
  obtain ⟨_, hstatus, _⟩ := id hret
  exact ⟨hpc, hsp, (retStep_popped hret).status.trans hstatus⟩

/-- Settles O42: by induction over the targets, each CALL pushing one slot. -/
theorem sixteenCallsNest : Obligations.SixteenCallsNest := by
  unfold Obligations.SixteenCallsNest
  intro targets
  induction targets with
  | nil =>
    intro s _
    exact ⟨s, rfl, rfl, rfl, fun hfull nnn => ⟨_, _, exec_call_full nnn hfull, raiseFault_status _ _, rfl⟩⟩
  | cons nnn rest ih =>
    intro s hfits
    rw [List.length_cons] at hfits
    obtain ⟨u, hpush, hpushed⟩ := pushed_of_room (s := advance s) (by rw [advance_sp]; omega)
    have hsp : u.sp.val = s.sp.val + 1 := hpushed.sp
    obtain ⟨t, hcalls, hspt, hstatus, hfull⟩ := ih (u.setPc (zext16 nnn)) (by rw [setPc_sp]; omega)
    refine ⟨t, ?calls, ?depth, hstatus.trans hpushed.status, hfull⟩
    case calls => exact andThen_eq_next.mpr ⟨_, exec_call_push nnn hpush, hcalls⟩
    case depth =>
      rw [setPc_sp] at hspt
      rw [List.length_cons]
      omega

/-- Settles O17: HALT only sets the status. -/
theorem haltEndsTheRun : Obligations.HaltEndsTheRun := by
  unfold Obligations.HaltEndsTheRun
  exact ⟨decode_encode .halt, fun s => ⟨s.setStatus .halted, rfl, rfl, rfl, setStatus_frame s _⟩⟩

/-- Settles O19: 0x2nnn is the encoding of CALL nnn; with room in the call stack it is a push and a jump. -/
theorem callPushesAndJumps : Obligations.CallPushesAndJumps := by
  unfold Obligations.CallPushesAndJumps
  intro nnn
  have hword : BitVec.ofNat 16 (0x2000 + nnn.toNat) = encode (.call nnn) := ofNat_eq_wordOfAddr 0x2#4 nnn
  refine ⟨decode_of_eq_encode hword, fun s => ⟨fun hroom => ?push, fun hfull => ?overflow⟩⟩
  case push =>
    obtain ⟨u, hpush, hpushed⟩ := pushed_of_room hroom
    exact ⟨_, exec_call_push nnn hpush, hpushed.sp, hpushed.slot, zext16_toNat nnn, hpushed.status,
      keepsRegs_of_eq _ hpushed.V hpushed.Vdef, keepsMemory_of_eq hpushed.mem, hpushed.keys⟩
  case overflow =>
    rw [hword]
    exact ⟨_, exec_call_full nnn hfull, raiseFault_faultedBy _ _ _ s⟩

/-- Settles O20: RET is a pop, and on an empty call stack a fault. -/
theorem retPopsThePc : Obligations.RetPopsThePc := by
  unfold Obligations.RetPopsThePc
  refine ⟨decode_encode .ret, fun s => ⟨fun hne => ?pop, fun hempty => ?underflow⟩⟩
  case pop =>
    obtain ⟨u, hpop, hpopped⟩ := popped_of_occupied hne
    exact ⟨u, exec_ret_pop hpop, hpopped.sp, hpopped.stack, hpopped.pc, hpopped.status,
      keepsRegs_of_eq _ hpopped.V hpopped.Vdef, keepsMemory_of_eq hpopped.mem, hpopped.keys⟩
  case underflow => exact ⟨_, exec_ret_empty hempty, raiseFault_faultedBy _ .ret _ s⟩

/-- Settles O21: 0x3xkk and 0x4xkk are the encodings of SE and SNE; with V[x] written each is a skip or nothing. -/
theorem skipsFollowTheComparison : Obligations.SkipsFollowTheComparison := by
  unfold Obligations.SkipsFollowTheComparison
  refine fun x kk => ⟨?se, ?sne, fun s hx => ⟨?seNext, ?sneNext⟩⟩
  case se => exact decode_of_eq_encode (i := .se x kk) (ofNat_eq_wordOfImm 0x3#4 x kk)
  case sne => exact decode_of_eq_encode (i := .sne x kk) (ofNat_eq_wordOfImm 0x4#4 x kk)
  case seNext =>
    have heffect : Effect s (if s.reg x = kk then skipNext s else s) (.se x kk) := rfl
    exact ⟨_, exec_effect (by simp [OperandsWritten, Reads, hx]) heffect, effect_pc heffect,
      skip_frame (ite_eq_or_eq _ _ _)⟩
  case sneNext =>
    have heffect : Effect s (if s.reg x = kk then s else skipNext s) (.sne x kk) := rfl
    exact ⟨_, exec_effect (by simp [OperandsWritten, Reads, hx]) heffect, effect_pc heffect,
      skip_frame (ite_eq_or_eq _ _ _).symm⟩

end Sys2Proof.Machine
end

section
/-! SUPPORT. What an instruction can depend on: two related states have the same operand values, so they fault alike, and their
effects are related (spec/10_state.md R22, spec/70_reset_and_hazards.md R212). -/

namespace Sys2Proof.Machine

/-! ## Two states on which an instruction finds the same operands -/

/-- The two states show instruction `i` the same operands, pc and depth of the call stack. -/
structure SameOperands (i : Instr) (s s' : State) : Prop where
  reg : ∀ q, q ∈ Reads i → s.reg q = s'.reg q
  written : ∀ q, q ∈ Reads i → s.written q = s'.written q
  pc : s.pc = s'.pc
  sp : s.sp = s'.sp

theorem SameOperands.operandsWritten {i : Instr} {s s' : State} (h : SameOperands i s s') :
    OperandsWritten i s ↔ OperandsWritten i s' := by
  constructor
  · exact fun hw q hq => (h.written q hq) ▸ hw q hq
  · exact fun hw q hq => (h.written q hq).symm ▸ hw q hq

theorem SameOperands.firstUnwritten_eq {i : Instr} {s s' : State} (h : SameOperands i s s') :
    firstUnwritten i s = firstUnwritten i s' :=
  List.find?_congr fun q hq => by rw [h.written q hq]

theorem SameOperands.execRecord_eq {i : Instr} {s s' : State} (h : SameOperands i s s') (kind : RunFault)
    (reg : Option RegIdx) : execRecord kind i reg s = execRecord kind i reg s' := by
  simp only [execRecord, instrAddr, h.pc]

/-- On the same operands an instruction has its effect on both states, or raises the same fault on both. -/
theorem SameOperands.effect_or_fault {i : Instr} {s s' t : State} (h : SameOperands i s s') (hexec : exec i s = .next t) :
    (OperandsWritten i s' ∧ Effect s t i) ∨ ∃ r, t = raiseFault r s ∧ exec i s' = .next (raiseFault r s') := by
  cases hf : firstUnwritten i s with
  | some q =>
    have hf' := h.firstUnwritten_eq ▸ hf
    rw [exec_firstUnwritten hf, next_inj] at hexec
    exact .inr ⟨_, hexec.symm, h.execRecord_eq _ _ ▸ exec_firstUnwritten hf'⟩
  | none =>
    have hw := firstUnwritten_none.mp hf
    have hw' := h.operandsWritten.mp hw
    rcases exec_cases hexec with ⟨_, heffect⟩ | ⟨kind, reg, hcause, rfl⟩
    · exact .inl ⟨hw', heffect⟩
    refine .inr ⟨_, rfl, ?_⟩
    rw [h.execRecord_eq]
    cases hcause with
    | unwritten read clear => exact absurd (hw _ read) (Bool.eq_false_iff.mp clear)
    | overflow isCall full =>
      subst isCall
      exact exec_call_full _ (h.sp ▸ full)
    | underflow isRet empty =>
      subst isRet
      exact exec_ret_empty (h.sp ▸ empty)
    | @divide x y isDiv _ zero =>
      subst isDiv
      have hy : s.reg y = s'.reg y := h.reg y (by simp [Reads])
      exact exec_div_zero hw' (hy ▸ zero)

/-! ## Agreement but for some registers (R22) -/

section
variable {rs : List RegIdx} {s s' : State} (h : AgreeOn rs s s')
include h

theorem agreeOn_mono {qs : List RegIdx} (hsub : ∀ r, r ∈ qs → r ∈ rs) : AgreeOn qs s s' := by
  obtain ⟨hregs, hrest⟩ := h
  exact ⟨fun r hr => hregs r (hsub r hr), hrest⟩

theorem agreeOn_setPc (a : Word) : AgreeOn rs (s.setPc a) (s'.setPc a) := by
  obtain ⟨hregs, _, hstack, hsp, hmem, hstatus, hkeys⟩ := h
  exact ⟨hregs, rfl, hstack, hsp, hmem, hstatus, hkeys⟩

theorem agreeOn_setStatus (v : Status) : AgreeOn rs (s.setStatus v) (s'.setStatus v) := by
  obtain ⟨hregs, hpc, hstack, hsp, hmem, _, hkeys⟩ := h
  exact ⟨hregs, hpc, hstack, hsp, hmem, rfl, hkeys⟩

theorem agreeOn_skipNext : AgreeOn rs (skipNext s) (skipNext s') := by
  obtain ⟨_, hpc, _⟩ := id h
  have hskip := agreeOn_setPc h (s.pc + 2)
  unfold skipNext
  rwa [← hpc]

/-- What is written to both agrees afterwards. -/
theorem agreeOn_writeReg (x : RegIdx) (v : Byte) : AgreeOn (x :: rs) (s.writeReg x v) (s'.writeReg x v) := by
  obtain ⟨hregs, hpc, hstack, hsp, hmem, hstatus, hkeys⟩ := h
  refine ⟨fun r hr => ?_, hpc, hstack, hsp, hmem, hstatus, hkeys⟩
  by_cases hx : r = x
  · simp [hx]
  · obtain ⟨hval, hbit⟩ := hregs r ((List.mem_cons.mp hr).resolve_left hx)
    simp [reg_writeReg, written_writeReg, hx, hval, hbit]

theorem agreeOn_writeRegAndFlag (x : RegIdx) (v f : Byte) :
    AgreeOn (flagReg :: x :: rs) (writeRegAndFlag x v f s) (writeRegAndFlag x v f s') :=
  agreeOn_writeReg (agreeOn_writeReg h x v) flagReg f

end

/-! ## Related pushes and pops -/

theorem pushed_agree {s s' t t' : State} (h : Pushed s t) (h' : Pushed s' t') (hpc : s.pc = s'.pc) (hsp : s.sp = s'.sp)
    {j : Fin 16} (hj : j.val ≠ s.sp.val → s.stack[j] = s'.stack[j]) : t.stack[j] = t'.stack[j] := by
  rw [h.slot, h'.slot, ← hsp, ← hpc]
  split
  · rfl
  · next hne => exact hj hne

theorem pushed_sp_eq {s s' t t' : State} (h : Pushed s t) (h' : Pushed s' t') (hsp : s.sp = s'.sp) : t.sp = t'.sp :=
  Fin.ext (by rw [h.sp, h'.sp, hsp])

theorem popped_sp_eq {s s' t t' : State} (h : Popped s t) (h' : Popped s' t') (hsp : s.sp = s'.sp) : t.sp = t'.sp := by
  have ht := h.sp
  have ht' := h'.sp
  rw [← hsp] at ht'
  exact Fin.ext (by omega)

theorem popped_pc_eq {s s' t t' : State} (h : Popped s t) (h' : Popped s' t') (hsp : s.sp = s'.sp)
    (hlive : ∀ j : Fin 16, j.val < s.sp.val → s.stack[j] = s'.stack[j]) : t.pc = t'.pc := by
  have hne := h.occupied
  have hlt := s.sp.isLt
  obtain ⟨j, hj⟩ : ∃ j : Fin 16, j.val + 1 = s.sp.val :=
    ⟨⟨s.sp.val - 1, by omega⟩, Nat.sub_add_cancel (Nat.pos_of_ne_zero hne)⟩
  rw [h.pc j hj, h'.pc j (hsp ▸ hj), hlive j (by omega)]

/-! ## Related effects (R22) -/

theorem agreeOn_of_pushed {rs : List RegIdx} {s s' t t' : State} (h : AgreeOn rs s s') (hp : Pushed s t)
    (hp' : Pushed s' t') : AgreeOn rs t t' := by
  obtain ⟨hregs, hpc, hstack, hsp, hmem, hstatus, hkeys⟩ := h
  refine ⟨fun r hr => ?regs, by rw [hp.pc, hp'.pc, hpc], ?stack, pushed_sp_eq hp hp' hsp, by rw [hp.mem, hp'.mem, hmem],
    by rw [hp.status, hp'.status, hstatus], by rw [hp.keys, hp'.keys, hkeys]⟩
  case regs => simpa only [State.reg, State.written, hp.V, hp'.V, hp.Vdef, hp'.Vdef] using hregs r hr
  case stack =>
    refine Vector.ext fun j hj => ?_
    exact pushed_agree hp hp' hpc hsp (j := ⟨j, hj⟩) fun _ => by rw [hstack]

theorem agreeOn_of_popped {rs : List RegIdx} {s s' t t' : State} (h : AgreeOn rs s s') (hp : Popped s t)
    (hp' : Popped s' t') : AgreeOn rs t t' := by
  obtain ⟨hregs, _, hstack, hsp, hmem, hstatus, hkeys⟩ := h
  refine ⟨fun r hr => ?regs, popped_pc_eq hp hp' hsp fun j _ => by rw [hstack], by rw [hp.stack, hp'.stack, hstack],
    popped_sp_eq hp hp' hsp, by rw [hp.mem, hp'.mem, hmem], by rw [hp.status, hp'.status, hstatus],
    by rw [hp.keys, hp'.keys, hkeys]⟩
  simpa only [State.reg, State.written, hp.V, hp'.V, hp.Vdef, hp'.Vdef] using hregs r hr

theorem agreeOn_flag_result {x y : RegIdx} {s s' : State} (h : AgreeOn [x, y] s s') (v f : Byte) :
    AgreeOn ([x, flagReg] ++ [x, y]) (writeRegAndFlag x v f s) (writeRegAndFlag x v f s') :=
  agreeOn_mono (agreeOn_writeRegAndFlag h x v f) (by simp)

theorem sameOperands_of_agreeOn {i : Instr} {s s' : State} (h : AgreeOn (Reads i) s s') : SameOperands i s s' := by
  obtain ⟨hregs, hpc, _, hsp, _⟩ := h
  exact ⟨fun q hq => (hregs q hq).1, fun q hq => (hregs q hq).2, hpc, hsp⟩

/-- From states that agree on what the instruction reads, the effects agree on that and on what it writes. -/
theorem effect_agreeOn {i : Instr} {s s' t : State} (h : AgreeOn (Reads i) s s') (heffect : Effect s t i) :
    ∃ t', Effect s' t' i ∧ AgreeOn (Writes i ++ Reads i) t t' := by
  have hreg : ∀ q, q ∈ Reads i → s.reg q = s'.reg q := (sameOperands_of_agreeOn h).reg
  have hsp : s.sp = s'.sp := (sameOperands_of_agreeOn h).sp
  cases i with
  | ret =>
    have hpop := popPc_some heffect
    obtain ⟨t', ht', hpop'⟩ := popped_of_occupied (s := s') (hsp ▸ hpop.occupied)
    exact ⟨t', ht', agreeOn_of_popped h hpop hpop'⟩
  | call nnn =>
    obtain ⟨u, hu, rfl⟩ := heffect
    have hpush := pushPc_some hu
    obtain ⟨u', hu', hpush'⟩ := pushed_of_room (s := s') (hsp ▸ hpush.room)
    exact ⟨_, ⟨u', hu', rfl⟩, agreeOn_setPc (agreeOn_of_pushed h hpush hpush') _⟩
  | halt | ldk =>
    simp only [Effect] at heffect
    subst heffect
    exact ⟨_, rfl, agreeOn_setStatus h _⟩
  | jmp nnn =>
    simp only [Effect] at heffect
    subst heffect
    exact ⟨_, rfl, agreeOn_setPc h _⟩
  | se x kk =>
    have hx : s.reg x = s'.reg x := hreg x (by simp [Reads])
    simp only [Effect] at heffect ⊢
    subst heffect
    rw [← hx]
    refine ⟨_, rfl, ?_⟩
    split
    · exact agreeOn_skipNext h
    · exact h
  | sne x kk =>
    have hx : s.reg x = s'.reg x := hreg x (by simp [Reads])
    simp only [Effect] at heffect ⊢
    subst heffect
    rw [← hx]
    refine ⟨_, rfl, ?_⟩
    split
    · exact h
    · exact agreeOn_skipNext h
  | ld x kk =>
    simp only [Effect] at heffect
    subst heffect
    exact ⟨_, rfl, agreeOn_writeReg h x kk⟩
  | or x y | and x y | xor x y =>
    have hx : s.reg x = s'.reg x := hreg x (by simp [Reads])
    have hy : s.reg y = s'.reg y := hreg y (by simp [Reads])
    simp only [Effect] at heffect ⊢
    subst heffect
    rw [← hx, ← hy]
    exact ⟨_, rfl, agreeOn_writeReg h x _⟩
  | add x y | sub x y | mul x y =>
    have hx : s.reg x = s'.reg x := hreg x (by simp [Reads])
    have hy : s.reg y = s'.reg y := hreg y (by simp [Reads])
    simp only [Effect] at heffect ⊢
    subst heffect
    rw [← hx, ← hy]
    exact ⟨_, rfl, agreeOn_flag_result h _ _⟩
  | div x y =>
    have hx : s.reg x = s'.reg x := hreg x (by simp [Reads])
    have hy : s.reg y = s'.reg y := hreg y (by simp [Reads])
    obtain ⟨hne, rfl⟩ := heffect
    simp only [Effect]
    rw [← hx, ← hy]
    exact ⟨_, ⟨hne, rfl⟩, agreeOn_flag_result h _ _⟩

/-! ## Other call-stack slots (R212) -/

/-- The state with the call-stack slots `k`. -/
def State.withStack (s : State) (k : Vector Word 16) : State := { s with stack := k }

theorem eq_withStack_of_agreeOnLive {s s' : State} (h : AgreeOnLive s s') :
    s' = s.withStack s'.stack ∧ ∀ j : Fin 16, j.val < s.sp.val → s.stack[j] = s'.stack[j] := by
  obtain ⟨hV, hVdef, hpc, hsp, hmem, hstatus, hkeys, hlive⟩ := h
  refine ⟨?_, hlive⟩
  cases s
  cases s'
  simp_all [State.withStack]

theorem agreeOnLive_withStack {s : State} {k : Vector Word 16}
    (h : ∀ j : Fin 16, j.val < s.sp.val → s.stack[j] = k[j]) : AgreeOnLive s (s.withStack k) :=
  ⟨rfl, rfl, rfl, rfl, rfl, rfl, rfl, h⟩

/-- No effect but CALL's and RET's depends on a slot. -/
theorem effect_withStack {i : Instr} {s t : State} (k : Vector Word 16) (hcall : ∀ nnn, i ≠ .call nnn) (hret : i ≠ .ret)
    (h : Effect s t i) : Effect (s.withStack k) (t.withStack k) i := by
  cases i with
  | ret => exact absurd rfl hret
  | call nnn => exact absurd rfl (hcall nnn)
  | se x kk | sne x kk =>
    simp only [Effect] at h ⊢
    subst h
    exact apply_ite (State.withStack · k) _ _ _
  | div x y =>
    obtain ⟨hne, rfl⟩ := h
    exact ⟨hne, rfl⟩
  | halt | jmp nnn | ld x kk | or x y | and x y | xor x y | add x y | sub x y | mul x y | ldk =>
    simp only [Effect] at h
    subst h
    rfl

theorem onKey_withStack (e : KeyEvent) (s : State) (k : Vector Word 16) :
    onKey e (s.withStack k) = (onKey e s).withStack k := by
  cases e <;> rfl

section
variable {s s' : State} (h : AgreeOnLive s s')
include h

theorem agreeOnLive_setPc (a : Word) : AgreeOnLive (s.setPc a) (s'.setPc a) := by
  obtain ⟨hV, hVdef, _, hsp, hmem, hstatus, hkeys, hlive⟩ := h
  exact ⟨hV, hVdef, rfl, hsp, hmem, hstatus, hkeys, hlive⟩

theorem agreeOnLive_setStatus (v : Status) : AgreeOnLive (s.setStatus v) (s'.setStatus v) := by
  obtain ⟨hV, hVdef, hpc, hsp, hmem, _, hkeys, hlive⟩ := h
  exact ⟨hV, hVdef, hpc, hsp, hmem, rfl, hkeys, hlive⟩

theorem agreeOnLive_raiseFault (r : FaultRecord) : AgreeOnLive (raiseFault r s) (raiseFault r s') :=
  agreeOnLive_setStatus h _

theorem agreeOnLive_setKeys (ks : List KeyEvent) : AgreeOnLive (s.setKeys ks) (s'.setKeys ks) := by
  obtain ⟨hV, hVdef, hpc, hsp, hmem, hstatus, _, hlive⟩ := h
  exact ⟨hV, hVdef, hpc, hsp, hmem, hstatus, rfl, hlive⟩

theorem agreeOnLive_advance : AgreeOnLive (advance s) (advance s') := by
  obtain ⟨_, _, hpc, _⟩ := id h
  have hadvance := agreeOnLive_setPc h (s.pc + 2)
  unfold advance
  rwa [← hpc]

theorem agreeOnLive_onKey (e : KeyEvent) : AgreeOnLive (onKey e s) (onKey e s') := by
  obtain ⟨hs', hlive⟩ := eq_withStack_of_agreeOnLive h
  obtain ⟨hstack, hsp⟩ := onKey_keepsStack e s
  rw [hs', onKey_withStack]
  refine agreeOnLive_withStack fun j hj => ?_
  rw [hstack]
  exact hlive j (hsp ▸ hj)

theorem agreeOnLive_of_pushed {t t' : State} (hp : Pushed s t) (hp' : Pushed s' t') : AgreeOnLive t t' := by
  obtain ⟨hV, hVdef, hpc, hsp, hmem, hstatus, hkeys, hlive⟩ := h
  refine ⟨by rw [hp.V, hp'.V, hV], by rw [hp.Vdef, hp'.Vdef, hVdef], by rw [hp.pc, hp'.pc, hpc],
    pushed_sp_eq hp hp' hsp, by rw [hp.mem, hp'.mem, hmem], by rw [hp.status, hp'.status, hstatus],
    by rw [hp.keys, hp'.keys, hkeys], fun j hj => ?slots⟩
  have hdepth := hp.sp
  exact pushed_agree hp hp' hpc hsp fun hne => hlive j (by omega)

theorem agreeOnLive_of_popped {t t' : State} (hp : Popped s t) (hp' : Popped s' t') : AgreeOnLive t t' := by
  obtain ⟨hV, hVdef, _, hsp, hmem, hstatus, hkeys, hlive⟩ := h
  refine ⟨by rw [hp.V, hp'.V, hV], by rw [hp.Vdef, hp'.Vdef, hVdef], popped_pc_eq hp hp' hsp hlive,
    popped_sp_eq hp hp' hsp, by rw [hp.mem, hp'.mem, hmem], by rw [hp.status, hp'.status, hstatus],
    by rw [hp.keys, hp'.keys, hkeys], fun j hj => ?slots⟩
  have hdepth := hp.sp
  rw [hp.stack, hp'.stack]
  exact hlive j (by omega)

theorem effect_agreeOnLive {i : Instr} {t : State} (heffect : Effect s t i) :
    ∃ t', Effect s' t' i ∧ AgreeOnLive t t' := by
  obtain ⟨hs', hlive⟩ := eq_withStack_of_agreeOnLive h
  obtain ⟨_, _, _, hsp, _⟩ := id h
  rcases effect_stack_cases heffect with ⟨nnn, u, rfl, hpush, rfl⟩ | ⟨rfl, hpop⟩ | ⟨hcall, hret, hstack, hdepth⟩
  · obtain ⟨u', hu', hpush'⟩ := pushed_of_room (s := s') (hsp ▸ hpush.room)
    exact ⟨_, ⟨u', hu', rfl⟩, agreeOnLive_setPc (agreeOnLive_of_pushed h hpush hpush') _⟩
  · obtain ⟨t', ht', hpop'⟩ := popped_of_occupied (s := s') (hsp ▸ hpop.occupied)
    exact ⟨t', ht', agreeOnLive_of_popped h hpop hpop'⟩
  · rw [hs']
    refine ⟨_, effect_withStack s'.stack hcall hret heffect, agreeOnLive_withStack fun j hj => ?_⟩
    rw [hstack]
    exact hlive j (hdepth ▸ hj)

theorem exec_agreeOnLive {i : Instr} {t : State} (hexec : exec i s = .next t) :
    ∃ t', exec i s' = .next t' ∧ AgreeOnLive t t' := by
  have hsame : SameOperands i s s' := by
    obtain ⟨hV, hVdef, hpc, hsp, _⟩ := h
    exact ⟨fun q _ => congrArg (·[q]) hV, fun q _ => congrArg (·[q]) hVdef, hpc, hsp⟩
  rcases hsame.effect_or_fault hexec with ⟨hw', heffect⟩ | ⟨r, rfl, hexec'⟩
  · obtain ⟨t', heffect', hagree⟩ := effect_agreeOnLive h heffect
    exact ⟨t', exec_effect hw' heffect', hagree⟩
  · exact ⟨_, hexec', agreeOnLive_raiseFault h r⟩

theorem cycle_agreeOnLive {t : State} (hcycle : cycle s = .next t) :
    ∃ t', cycle s' = .next t' ∧ AgreeOnLive t t' := by
  obtain ⟨_, _, hpc, _, hmem, _⟩ := id h
  simp only [cycle, ← hmem, ← hpc]
  rcases cycle_cases hcycle with ⟨hw, rfl⟩ | ⟨w, e, hw, hdec, rfl⟩ | ⟨w, i, hw, hdec, hexec⟩
  · exact ⟨_, by simp only [hw], agreeOnLive_raiseFault h _⟩
  · exact ⟨_, by simp only [hw, hdec], agreeOnLive_raiseFault (agreeOnLive_advance h) _⟩
  · simp only [hw, hdec]
    exact exec_agreeOnLive (agreeOnLive_advance h) hexec

end

/-! ## The obligations about what a step depends on -/

/-- Settles O31: the same operands make the instruction fault alike, and without a fault the results are computed from them. -/
theorem registerReadsAreListed : Obligations.RegisterReadsAreListed := by
  unfold Obligations.RegisterReadsAreListed
  intro i s s' t h _ hexec
  rcases (sameOperands_of_agreeOn h).effect_or_fault hexec with ⟨hw', heffect⟩ | ⟨r, rfl, hexec'⟩
  · obtain ⟨t', heffect', hagree⟩ := effect_agreeOn h heffect
    exact ⟨t', exec_effect hw' heffect', agreeOn_mono hagree fun r => List.mem_append_right _,
      fun _ => agreeOn_mono hagree fun r => List.mem_append_left _⟩
  · exact ⟨_, hexec', agreeOn_setStatus h _, fun hok => absurd (raiseFault_status r s) (hok r)⟩

/-- Settles O43: RET reads a slot below sp and CALL writes the slot at sp, which it makes live; nothing else uses a slot. -/
theorem deadSlotsAreUnobservable : Obligations.DeadSlotsAreUnobservable := by
  unfold Obligations.DeadSlotsAreUnobservable
  intro s s' t h hstep
  obtain ⟨_, _, _, _, _, hstatusEq, hkeysEq, _⟩ := id h
  have hstatus : s'.status = s.status := hstatusEq.symm
  rcases step_cases hstep with ⟨hs, hcycle⟩ | ⟨hs, hcycle⟩ | ⟨hs, hwait⟩
  · rw [step_idle (hstatus.trans hs)]
    exact cycle_agreeOnLive (agreeOnLive_setStatus h .running) hcycle
  · rw [step_running (hstatus.trans hs)]
    exact cycle_agreeOnLive h hcycle
  · obtain ⟨e, rest, hkeys, rfl⟩ := waitStep_eq_next.mp hwait
    have hkeys' : s'.keys = e :: rest := hkeysEq ▸ hkeys
    exact ⟨_, step_key (hstatus.trans hs) hkeys', agreeOnLive_onKey (agreeOnLive_setKeys h rest) e⟩

end Sys2Proof.Machine
end

section
/-! SUPPORT. The arithmetic instructions with a flag (spec/42_arithmetic_logic.md R144 to R149): their results as numbers, and
their one next state. -/

namespace Sys2Proof.Machine

/-! ## Results and flags as numbers -/

theorem flagByte_toNat (p : Prop) [Decidable p] : (flagByte (decide p)).toNat = if p then 1 else 0 := by
  by_cases h : p <;> simp [flagByte, h]

section
variable (a b : Byte)

theorem addResult_toNat : (addResult a b).toNat = (a.toNat + b.toNat) % 256 := BitVec.toNat_ofNat _ 8

theorem subResult_toNat : (subResult a b).toNat = (a.toNat + 256 - b.toNat) % 256 := BitVec.toNat_ofNat _ 8

theorem mulResult_toNat : (mulResult a b).toNat = a.toNat * b.toNat % 256 := BitVec.toNat_ofNat _ 8

theorem divResult_toNat : (divResult a b).toNat = a.toNat / b.toNat :=
  (BitVec.toNat_ofNat _ 8).trans (Nat.mod_eq_of_lt (Nat.lt_of_le_of_lt (Nat.div_le_self _ _) a.isLt))

theorem divRemainder_toNat : (divRemainder a b).toNat = a.toNat % b.toNat :=
  (BitVec.toNat_ofNat _ 8).trans (Nat.mod_eq_of_lt (Nat.lt_of_le_of_lt (Nat.mod_le _ _) a.isLt))

end

/-! ## The one next state (R149) -/

theorem writeRegAndFlag_frame (s : State) (x : RegIdx) (v f : Byte) :
    Frame [x, flagReg] s (writeRegAndFlag x v f s) :=
  ⟨writeRegAndFlag_keepsRegs s x v f, ⟨writeRegAndFlag_stack x v f s, writeRegAndFlag_sp x v f s⟩,
    keepsMemory_of_eq (writeRegAndFlag_mem x v f s), writeRegAndFlag_keys x v f s⟩

/-- An instruction whose effect is a result and then a flag leaves both, and nothing else. -/
theorem exec_flag_result {i : Instr} {s : State} {x : RegIdx} {v f : Byte} {n m : Nat}
    (hexec : exec i s = .next (writeRegAndFlag x v f s)) (hv : v.toNat = n) (hf : f.toNat = m) :
    ∃ t, exec i s = .next t ∧ (x ≠ 0xF → (t.reg x).toNat = n) ∧ (t.reg 0xF).toNat = m ∧
      t.written x = true ∧ t.written 0xF = true ∧ Frame [x, 0xF] s t ∧ KeepsControl s t := by
  refine ⟨_, hexec, fun hx => ?result, ?flag, ?writtenX, ?writtenFlag, writeRegAndFlag_frame s x v f, rfl, rfl⟩
  case result => rw [writeRegAndFlag_dest hx, hv]
  case flag => exact (congrArg BitVec.toNat (writeRegAndFlag_flag x v f s)).trans hf
  case writtenX => simp [writeRegAndFlag_written]
  case writtenFlag => simp [writeRegAndFlag_written, flagReg]

end Sys2Proof.Machine

/-! ## The obligations about ADD, SUB, MUL and DIV -/

namespace Sys2Proof

open Machine

/-- Settles O24: 0x8xy4 is the encoding of ADD, whose effect is a result and then a flag. -/
theorem addResult : Obligations.AddResult := by
  unfold Obligations.AddResult
  refine fun x y => ⟨?decodes, fun s hx hy => ?next⟩
  case decodes => exact decode_of_eq_encode (i := .add x y) (ofNat_eq_wordOfFields 0x8#4 0x4#4 x y)
  case next =>
    exact exec_flag_result (exec_effect ((operandsWritten_pair rfl).mpr ⟨hx, hy⟩) rfl) (addResult_toNat _ _)
      (flagByte_toNat _)

/-- Settles O25: 0x8xy5 is the encoding of SUB, whose effect is a result and then a flag. -/
theorem subResult : Obligations.SubResult := by
  unfold Obligations.SubResult
  refine fun x y => ⟨?decodes, fun s hx hy => ?next⟩
  case decodes => exact decode_of_eq_encode (i := .sub x y) (ofNat_eq_wordOfFields 0x8#4 0x5#4 x y)
  case next =>
    exact exec_flag_result (exec_effect ((operandsWritten_pair rfl).mpr ⟨hx, hy⟩) rfl) (subResult_toNat _ _)
      (flagByte_toNat _)

/-- Settles O26: 0x8xyC is the encoding of MUL, whose effect is a result and then a flag. -/
theorem mulResult : Obligations.MulResult := by
  unfold Obligations.MulResult
  refine fun x y => ⟨?decodes, fun s hx hy => ?next⟩
  case decodes => exact decode_of_eq_encode (i := .mul x y) (ofNat_eq_wordOfFields 0x8#4 0xC#4 x y)
  case next =>
    exact exec_flag_result (exec_effect ((operandsWritten_pair rfl).mpr ⟨hx, hy⟩) rfl) (mulResult_toNat _ _)
      (flagByte_toNat _)

/-- Settles O27: 0x8xyD is the encoding of DIV; it writes quotient and remainder, or faults before any write. -/
theorem divResult : Obligations.DivResult := by
  unfold Obligations.DivResult
  intro x y
  have hword : BitVec.ofNat 16 (0x800D + 256 * x.val + 16 * y.val) = encode (.div x y) :=
    ofNat_eq_wordOfFields 0x8#4 0xD#4 x y
  refine ⟨decode_of_eq_encode hword, fun s hx hy => ?_⟩
  have hw : OperandsWritten (.div x y) s := (operandsWritten_pair rfl).mpr ⟨hx, hy⟩
  refine ⟨fun hne => ?quotient, fun hzero => ?fault⟩
  case quotient =>
    exact exec_flag_result (exec_effect hw ⟨hne, rfl⟩) (divResult_toNat _ _) (divRemainder_toNat _ _)
  case fault =>
    rw [hword]
    exact ⟨_, exec_div_zero hw hzero, raiseFault_faultedBy _ _ _ s⟩

end Sys2Proof
end

section
/-! SUPPORT. Key events, the wait, and the loop of run() (spec/43_key_read.md R170 to R174, spec/40_dispatch_loop.md R101,
R105). -/

namespace Sys2Proof.Machine

/-! ## The table of the host's requests (R201) -/

/-- A request that is answered at all when accepted is refused exactly where the table has no entry. -/
theorem ifAccepted_refused_iff {r : HostRequest} {s : State} {o : Out} (ho : o ≠ .refused (.requestRefused r)) :
    ifAccepted r s o = .refused (.requestRefused r) ↔ hostAccepts r s.status = false := by
  cases h : hostAccepts r s.status <;> simp [ifAccepted, h, ho]

theorem hostRun_refused {s : State} : hostRun s = .refused (.requestRefused .run) ↔ s.status ≠ .idle := by
  unfold hostRun
  rw [ifAccepted_refused_iff]
  · cases s.status <;> simp [hostAccepts]
  · nofun

theorem keyPort_refused {e : KeyEvent} {s : State} :
    keyPort e s = .refused (.requestRefused .keyEvent) ↔ s.status ≠ .waitKey := by
  unfold keyPort
  rw [ifAccepted_refused_iff]
  · cases s.status <;> simp [hostAccepts]
  · nofun

section
variable {r : HostRequest} (hr : r = .reset ∨ r = .load ∨ r = .readState) {v : Status}
include hr

/-- A reset, a load and a state read are refused during a run. -/
theorem hostAccepts_false_iff : hostAccepts r v = false ↔ v = .running ∨ v = .waitKey := by
  obtain rfl | rfl | rfl := hr <;> cases v <;> simp [hostAccepts]

theorem hostAccepts_of_outside_run (hrun : v ≠ .running) (hwait : v ≠ .waitKey) : hostAccepts r v = true := by
  cases h : hostAccepts r v with
  | true => rfl
  | false => exact absurd ((hostAccepts_false_iff hr).mp h) (not_or.mpr ⟨hrun, hwait⟩)

end

/-! ## The key port in WaitKey (R172, R201) -/

theorem keyPort_waitKey {s : State} (e : KeyEvent) (h : s.status = .waitKey) : keyPort e s = .next (onKey e s) :=
  keyPort_eq_next.mpr ⟨by simp [h, hostAccepts], rfl⟩

theorem onKey_char_frame (code : Nat) (s : State) : Frame [0] s (onKey (.char code) s) := writeReg_frame s keyReg _

theorem keyByte_toNat (code : Nat) : (keyByte code).toNat = code % 256 := BitVec.toNat_ofNat code 8

/-! ## Turns of the loop (R101) -/

/-- The loop goes on where it goes on from the state it has reached. -/
theorem runLoop_add {n : Nat} {s t : State} (k : Nat) (h : runLoop n s = .next t) : runLoop (n + k) s = runLoop k t := by
  induction n generalizing s with
  | zero =>
    obtain rfl : s = t := next_inj.mp h
    rw [Nat.zero_add]
  | succ n ih =>
    rw [Nat.add_right_comm]
    cases hp : inProgress s with
    | false =>
      rw [runLoop_ended _ hp, next_inj] at h
      rw [← h, runLoop_ended _ hp, runLoop_ended _ hp]
    | true =>
      cases hk : awaitsKey s with
      | true =>
        rw [runLoop_awaitsKey _ hk, next_inj] at h
        rw [← h, runLoop_awaitsKey _ hk, runLoop_awaitsKey _ hk]
      | false =>
        rw [runLoop_succ _ hp hk] at h ⊢
        obtain ⟨u, hu, hloop⟩ := andThen_eq_next.mp h
        rw [hu]
        exact ih hloop

/-- One turn is one step, where the run goes on. -/
theorem runLoop_one {s : State} (h : s.status = .running ∨ (s.status = .waitKey ∧ s.keys ≠ [])) :
    runLoop 1 s = step s := by
  have hp : inProgress s = true := inProgress_iff.mpr (h.imp_right And.left)
  have hk : awaitsKey s = false := by
    refine Bool.eq_false_iff.mpr fun hawaits => ?_
    obtain ⟨hs, hnil⟩ := awaitsKey_iff.mp hawaits
    obtain hr | ⟨_, hne⟩ := h
    · simp [hs] at hr
    · exact hne hnil
  obtain ⟨t, ht⟩ := step_next (.inr h)
  rw [runLoop_succ 0 hp hk, ht]
  rfl

theorem status_ne_idle_of_step {s t : State} (h : s.status = .running ∨ s.status = .waitKey) (hstep : step s = .next t) :
    t.status ≠ .idle := by
  obtain ⟨hrunning, hwaiting⟩ := runEndsOnlyAtHaltOrFault
  obtain hs | hs := h
  · obtain ⟨_, _, hne⟩ := hrunning s t hs hstep
    exact hne
  · obtain ht | ht := hwaiting s t hs hstep <;> simp [ht]

/-- The loop reaches a state at any bound, and never goes back to Idle. -/
theorem runLoop_next (n : Nat) {s : State} (h : s.status ≠ .idle) : ∃ t, runLoop n s = .next t ∧ t.status ≠ .idle := by
  induction n generalizing s with
  | zero => exact ⟨s, rfl, h⟩
  | succ n ih =>
    cases hp : inProgress s with
    | false => exact ⟨s, runLoop_ended _ hp, h⟩
    | true =>
      cases hk : awaitsKey s with
      | true => exact ⟨s, runLoop_awaitsKey _ hk, h⟩
      | false =>
        have hs := inProgress_iff.mp hp
        have hgoes : s.status = .running ∨ (s.status = .waitKey ∧ s.keys ≠ []) :=
          hs.imp_right fun hw => ⟨hw, fun hnil => by simp [awaitsKey_iff.mpr ⟨hw, hnil⟩] at hk⟩
        obtain ⟨u, hu⟩ := step_next (.inr hgoes)
        obtain ⟨t, ht, hne⟩ := ih (status_ne_idle_of_step hs hu)
        exact ⟨t, by rw [runLoop_succ n hp hk]; exact andThen_eq_next.mpr ⟨u, hu, ht⟩, hne⟩

/-! ## A wait with only Other events to come (R173) -/

theorem runLoop_other_keys (n : Nat) {s : State} (hs : s.status = .waitKey) (hother : ∀ e ∈ s.keys, e = .other) :
    runLoop n s = .next (s.setKeys (s.keys.drop n)) := by
  induction n generalizing s with
  | zero => rfl
  | succ n ih =>
    cases hkeys : s.keys with
    | nil =>
      rw [runLoop_awaitsKey _ (awaitsKey_iff.mpr ⟨hs, hkeys⟩), List.drop_nil, ← hkeys]
      rfl
    | cons e rest =>
      obtain rfl : e = .other := hother e (by simp [hkeys])
      have hstep : step s = .next (s.setKeys rest) := step_key hs hkeys
      have hone : runLoop 1 s = .next (s.setKeys rest) :=
        (runLoop_one (.inr ⟨hs, by simp [hkeys]⟩)).trans hstep
      have hturn : runLoop (n + 1) s = runLoop n (s.setKeys rest) := Nat.add_comm 1 n ▸ runLoop_add n hone
      rw [hturn]
      refine ih (s := s.setKeys rest) hs fun e he => hother e ?_
      rw [hkeys]
      exact List.mem_cons_of_mem _ he

/-! ## The result of a run (R105) -/

theorem runResult_halted {s : State} (h : s.status = .halted) : runResult s = some .halted := by
  simp [runResult, h]

theorem runResult_faulted {s : State} {r : FaultRecord} (h : s.status = .faulted r) :
    runResult s = some (.faulted r) := by
  simp [runResult, h]

theorem runResult_in_progress {s : State} (h : s.status = .running ∨ s.status = .waitKey) : runResult s = none := by
  obtain h | h := h <;> simp [runResult, h]

theorem runLoop_ended_add {n : Nat} {s t : State} (h : runLoop n s = .next t) (hend : inProgress t = false) (k : Nat) :
    runLoop (n + k) s = .next t :=
  (runLoop_add k h).trans (runLoop_ended k hend)

/-! ## The obligations about the wait and the loop -/

/-- Settles O44: LDK only sets the status, and each key event has its one next state. -/
theorem ldkReadsOneKey : Obligations.LdkReadsOneKey := by
  unfold Obligations.LdkReadsOneKey
  refine ⟨decode_encode .ldk, ?others, fun s => ?waits, fun s hs => ⟨fun code => ?char, ?cancel, ?other⟩⟩
  case others => decide
  case waits => exact ⟨s.setStatus .waitKey, rfl, rfl, rfl, setStatus_frame s _⟩
  case char =>
    refine ⟨_, keyPort_waitKey _ hs, ?_, written_writeReg_same s keyReg (keyByte code), rfl, rfl, onKey_char_frame code s⟩
    exact (congrArg BitVec.toNat (reg_writeReg_same s keyReg _)).trans (keyByte_toNat code)
  case cancel => exact ⟨_, keyPort_waitKey _ hs, rfl, rfl, setStatus_frame s _⟩
  case other => exact keyPort_waitKey .other hs

/-- Settles O45: the step and the key port apply the same key event. -/
theorem stepDeliversTheNextKey : Obligations.StepDeliversTheNextKey := by
  unfold Obligations.StepDeliversTheNextKey
  exact fun s hs => ⟨step_no_key hs, fun e rest hkeys => (step_key hs hkeys).trans (keyPort_waitKey (s := s.setKeys rest) e hs).symm⟩

/-- Settles O46: by induction on the bound, each turn only takes an event from the list. -/
theorem otherKeysNeverEndTheWait : Obligations.OtherKeysNeverEndTheWait := by
  unfold Obligations.OtherKeysNeverEndTheWait
  intro n s hs hother
  refine ⟨_, runLoop_other_keys n hs hother, ⟨rfl, rfl⟩, keepsRegs_of_eq _ rfl rfl, ⟨rfl, rfl⟩, fun _ => rfl, rfl, ?_⟩
  exact fun hlen => step_no_key hs (List.drop_eq_nil_of_le hlen)

/-- Settles O51: the loop reaches some state outside Idle, and that state's status says whether a further turn is a step. -/
theorem endedRunsStayEnded : Obligations.EndedRunsStayEnded := by
  unfold Obligations.EndedRunsStayEnded
  refine ⟨fun n s => ⟨fun hs => ?idle, fun hs => ?refused⟩, fun n s hs => ?loop⟩
  case idle => simp [runFor, hostRun_eq_next.mpr ⟨hs, rfl⟩, andThen]
  case refused => simp only [runFor, hostRun_refused.mpr hs, andThen]
  case loop =>
    obtain ⟨t, ht, hne⟩ := runLoop_next n (s := s) (by obtain h | h := hs <;> simp [h])
    refine ⟨t, ht, ?_⟩
    cases hst : t.status with
    | idle => exact absurd hst hne
    | running =>
      have hgoes : t.status = .running ∨ (t.status = .waitKey ∧ t.keys ≠ []) := .inl hst
      exact .inl ⟨.inl rfl, runResult_in_progress (.inl hst), (runLoop_add 1 ht).trans (runLoop_one hgoes)⟩
    | waitKey =>
      by_cases hnil : t.keys = []
      · have hawaits := awaitsKey_iff.mpr ⟨hst, hnil⟩
        exact .inr (.inl ⟨rfl, hnil, runResult_in_progress (.inr hst),
          fun k => (runLoop_add k ht).trans (runLoop_awaitsKey k hawaits)⟩)
      · exact .inl ⟨.inr ⟨rfl, hnil⟩, runResult_in_progress (.inr hst),
          (runLoop_add 1 ht).trans (runLoop_one (.inr ⟨hst, hnil⟩))⟩
    | halted =>
      have hend : inProgress t = false := by simp [inProgress, hst]
      exact .inr (.inr (.inl ⟨rfl, runResult_halted hst, runLoop_ended_add ht hend⟩))
    | faulted r =>
      have hend : inProgress t = false := by simp [inProgress, hst]
      exact .inr (.inr (.inr ⟨r, rfl, runResult_faulted hst, runLoop_ended_add ht hend⟩))

end Sys2Proof.Machine
end

section
/-! SUPPORT. The host: reset, load, boot and the placed word (spec/20_memory.md R55, spec/60_exceptions.md R201,
spec/70_reset_and_hazards.md R210 to R217). -/

namespace Sys2Proof.Machine

/-! ## Accepted requests -/

section
variable {s : State} (hrun : s.status ≠ .running) (hwait : s.status ≠ .waitKey)
include hrun hwait

theorem hostReset_outside_run (p : ResetParams) : hostReset p s = .next (State.resetWith p s.keys) :=
  ifAccepted_eq_next.mpr ⟨hostAccepts_of_outside_run (.inl rfl) hrun hwait, rfl⟩

theorem hostLoad_outside_run {bytes : List Byte} {start : Nat} (hfits : start + bytes.length ≤ 4096) :
    hostLoad bytes start s = .next (s.setMem (Memory.writeBytes s.mem start bytes)) :=
  hostLoad_eq_next.mpr ⟨hostAccepts_of_outside_run (.inr (.inl rfl)) hrun hwait, hfits, rfl⟩

theorem hostLoad_past_end {bytes : List Byte} {start : Nat} (hpast : 4096 < start + bytes.length) :
    hostLoad bytes start s = .fault (.boundsFault start bytes.length) := by
  have haccepts : hostAccepts .load s.status = true := hostAccepts_of_outside_run (.inr (.inl rfl)) hrun hwait
  simp only [hostLoad, ifAccepted, haccepts, if_true, if_pos hpast]

end

theorem boot_outside_run {s : State} (hrun : s.status ≠ .running) (hwait : s.status ≠ .waitKey) (p : ResetParams)
    {bytes : List Byte} {start : Word} (hfits : start.toNat + bytes.length ≤ 4096) :
    boot p bytes start s = .next (((State.resetWith { p with entryPc := start } s.keys).setMem
      (Memory.writeBytes [] start.toNat bytes)).setStatus .running) := by
  have hload := hostLoad_outside_run (s := State.resetWith { p with entryPc := start } s.keys) nofun nofun hfits
  refine andThen_eq_next.mpr ⟨_, hostReset_outside_run hrun hwait _, andThen_eq_next.mpr ⟨_, hload, ?_⟩⟩
  exact hostRun_eq_next.mpr ⟨rfl, rfl⟩

/-! ## The registers after a reset (R211) -/

section
variable {p : ResetParams} (keys : List KeyEvent) (r : RegIdx)

theorem resetWith_some {v : Vector Byte 16} (h : p.regReset = some v) :
    (State.resetWith p keys).reg r = v[r] ∧ (State.resetWith p keys).written r = true := by
  simp [State.reg, State.written, State.resetWith, h]

theorem resetWith_none (h : p.regReset = none) : (State.resetWith p keys).written r = false := by
  simp [State.written, State.resetWith, h]

end

/-! ## The placed word (log 23) -/

theorem ofNat_low_bits (w : Word) : BitVec.ofNat 16 (w.toNat % 2 ^ 16) = w := by
  rw [Nat.mod_eq_of_lt w.isLt, BitVec.ofNat_toNat, BitVec.setWidth_eq]

theorem withFetchWord_eq (s : State) (w : Word) : s.withFetchWord 16 w.toNat = placeInstruction s w :=
  congrArg (placeInstruction s) (ofNat_low_bits w)

/-- The word is placed where both its bytes fit. -/
theorem placeAddr_le (s : State) : (placeAddr s).toNat + 2 ≤ 4096 := by
  unfold placeAddr
  split
  · decide
  · omega

section
variable {s : State} (hwf : s.mem.wf = true) (w : Word)
include hwf

theorem placeInstruction_wf : (placeInstruction s w).mem.wf = true :=
  wf_writeBytes (bytes := [highByte w, lowByte w]) hwf (placeAddr_le s)

theorem fetchWord_placeInstruction : fetchWord (placeInstruction s w).mem (placeInstruction s w).pc = some w := by
  have hfits : (placeAddr s).toNat + [highByte w, lowByte w].length ≤ 4096 := placeAddr_le s
  have hhigh := readByte_writeBytes_inside (i := 0) hwf hfits (by simp)
  have hlow := readByte_writeBytes_inside (i := 1) hwf hfits (by simp)
  refine fetchWord_some.mpr ⟨Nat.le_of_succ_le_succ (placeAddr_le s), ?_⟩
  exact (wordOfBytes_high_low w).symm.trans (congrArg₂ wordOfBytes hhigh.symm hlow.symm)

end

theorem decodeTableWord_of_decode {w : Word} {i : Instr} (h : decode w = .ok i) :
    decodeTableWord 16 w.toNat = some i := by
  simp only [decodeTableWord, ofNat_low_bits, decodeBytes, wordOfBytes_high_low, h, Except.map]

/-! ## The obligations about the host -/

/-- Settles O47: each request is refused by the table alone, since no accepted request is refused. -/
theorem hostRequestsByStatus : Obligations.HostRequestsByStatus := by
  unfold Obligations.HostRequestsByStatus
  refine fun s => ⟨fun p => ?reset, fun bytes start => ?load, hostRun_refused, ?read, fun t => ?observed,
    fun e => keyPort_refused⟩
  case reset =>
    unfold hostReset
    rw [ifAccepted_refused_iff, hostAccepts_false_iff (.inl rfl)]
    nofun
  case load =>
    unfold hostLoad
    rw [ifAccepted_refused_iff, hostAccepts_false_iff (.inr (.inl rfl))]
    split <;> nofun
  case read =>
    rw [← hostAccepts_false_iff (r := .readState) (.inr (.inr rfl))]
    cases h : hostAccepts .readState s.status <;> simp [observe, h]
  case observed =>
    rw [← not_or, ← hostAccepts_false_iff (r := .readState) (.inr (.inr rfl))]
    cases h : hostAccepts .readState s.status <;> simp [observe, h, eq_comm]

/-- Settles O48: the laws of memory for a sequence of writes; nothing but memory is set. -/
theorem loadWritesExactlyItsBytes : Obligations.LoadWritesExactlyItsBytes := by
  unfold Obligations.LoadWritesExactlyItsBytes
  intro bytes start s hrun hwait hwf
  refine ⟨fun hfits => ?fits, hostLoad_past_end hrun hwait⟩
  exact ⟨_, hostLoad_outside_run hrun hwait hfits, wf_writeBytes hwf hfits,
    fun k hk => readByte_writeBytes_inside hwf hfits hk, fun a => readByte_writeBytes_outside hwf hfits,
    keepsRegs_of_eq _ rfl rfl, ⟨rfl, rfl⟩, ⟨rfl, rfl⟩, rfl⟩

/-- Settles O49: an accepted reset is `resetWith`, and the model's own is it at registers 0 and pc 0. -/
theorem resetState : Obligations.ResetState := by
  unfold Obligations.ResetState
  refine ⟨fun p s hrun hwait => ?reset, rfl, fun r => ?registers, rfl, rfl, fun _ => rfl, rfl⟩
  case reset =>
    exact ⟨_, hostReset_outside_run hrun hwait p, rfl, fun v hv r => resetWith_some s.keys r hv,
      fun hnone r => resetWith_none s.keys r hnone, rfl, rfl, rfl, fun _ => rfl, rfl, rfl⟩
  case registers =>
    obtain ⟨hreg, hwritten⟩ := resetWith_some (p := ResetParams.default) [] r rfl
    exact ⟨hreg.trans (by simp), hwritten⟩

/-- Settles O50: reset, load and run() are accepted one after the other, and the load writes into empty memory. -/
theorem bootStartsTheProgram : Obligations.BootStartsTheProgram := by
  unfold Obligations.BootStartsTheProgram
  intro p bytes start s hrun hwait hfits
  have hwf : Memory.wf [] = true := rfl
  exact ⟨_, boot_outside_run hrun hwait p hfits, rfl, rfl, rfl, wf_writeBytes hwf hfits,
    fun k hk => readByte_writeBytes_inside hwf hfits hk, fun a => readByte_writeBytes_outside hwf hfits,
    fun v hv r => resetWith_some (p := { p with entryPc := start }) s.keys r hv,
    fun hnone r => resetWith_none (p := { p with entryPc := start }) s.keys r hnone, rfl, rfl⟩

/-- Settles O52: the two placed bytes are the ones the next fetch reads. -/
theorem placedWordRunsNext : Obligations.PlacedWordRunsNext := by
  unfold Obligations.PlacedWordRunsNext
  intro s w i hwf hdec
  rw [withFetchWord_eq]
  have hinstr : instrAt (placeInstruction s w) = some i :=
    instrAt_some.mpr ⟨w, fetchWord_placeInstruction hwf w, hdec⟩
  exact ⟨(step_running rfl).trans (cycle_instr hinstr), decodeTableWord_of_decode hdec, placeInstruction_wf hwf w,
    keepsRegs_of_eq _ rfl rfl, ⟨rfl, rfl⟩, rfl⟩

end Sys2Proof.Machine
end
